-- ==== Sys2Proof/Word.lean ====
section
/-! DEFINITION. The words of the block: a byte, a raw reading, and the frame (R7, R21, R50). -/

namespace Sys2Proof

/-- A byte is 8 bits (R7). -/
abbrev Byte := BitVec 8

/-- A raw analog reading. A reading has `W` bits and `W` is at most 12 (R5), so 12 bits hold every one;
that a reading of a narrower converter stays below `2 ^ W` is said where it is read and in `State.wf`. -/
abbrev Reading := BitVec 12

/-- A frame: "a value object with fields {command, channel index, data byte 1, data byte 2, checksum}",
"no identity beyond its byte content" (R21, R50). -/
structure Frame where
  command  : Byte
  index    : Byte
  data1    : Byte
  data2    : Byte
  checksum : Byte
  deriving DecidableEq, Repr

end Sys2Proof
end

