-- ==== Sys2Proof/Config.lean ====
section
/-! DEFINITION. The configuration record of R5, its constraints, and the free values of the environment. -/

namespace Sys2Proof

/-- The parameter `SPLIT`: how a raw reading becomes (data1, data2) (R5, R56, R57). -/
inductive Split where
  /-- Low nibble first: the policy this spec takes (R56). -/
  | nibble
  /-- The alternative 16-bit little-endian split, defined and not adopted (R57). -/
  | le16
  deriving DecidableEq, Repr

/-- The parameters of R5, by the names the spec gives them. They are hardwired constants: no operation
writes one (R20). `CMD_B` and `CMD_P` are the constants `cmdB` and `cmdP` of `Decode.lean`. -/
structure Config where
  /-- number of digital channels -/
  N : Nat
  /-- number of analog channels -/
  M : Nat
  /-- width in bits of a raw analog reading -/
  W : Nat
  /-- excursion threshold of the analog comparator -/
  THRESHOLD : Nat
  /-- value loaded into a decay counter by an excursion -/
  IDLE_TIMEOUT : Nat
  /-- width in bits of a decay counter -/
  DW : Nat
  /-- the fixed delay before each scan: timing only, no rule reads it (R5, D11) -/
  POLL_PERIOD : Nat
  /-- how a reading is split over two bytes -/
  SPLIT : Split
  /-- reset value of every `dlast[i]` -/
  DSEED : Bool
  deriving DecidableEq, Repr

/-- The constraints of R5 on the parameters. -/
abbrev Config.wf (c : Config) : Prop :=
  c.N ≤ 256 ∧ c.M ≤ 256 ∧ 1 ≤ c.W ∧ c.W ≤ 12 ∧ 1 ≤ c.DW ∧ c.IDLE_TIMEOUT ≤ 2 ^ c.DW - 1

/-- Why a configuration is refused when the model is built (R5, D16); never a run-time condition. -/
inductive ConfigError where
  | tooManyDigitalChannels
  | tooManyAnalogChannels
  | readingWidth
  | counterWidth
  | timeoutTooLong
  deriving DecidableEq, Repr

/-- The configuration of `State.reset`. DESIGN CHOICE (log entry 2, unsafe): `N` and `M` are OPEN in the
spec; here every index an index byte can carry is a channel. `W`, `DW`, `SPLIT` and `DSEED` are the
spec's defaults, `THRESHOLD`, `IDLE_TIMEOUT` and `POLL_PERIOD` (in ms) the source's unaudited examples. -/
def Config.atReset : Config where
  N := 256
  M := 256
  W := 12
  THRESHOLD := 10
  IDLE_TIMEOUT := 100
  DW := 8
  POLL_PERIOD := 100
  SPLIT := .nibble
  DSEED := false

/-! ### Free values

What the environment supplies is a free draw (R31, R32, R141; U3, U15): nothing in Lean can evaluate these
or prove a value of one. The first argument numbers the instant, the second the channel. The one law is the
weak fairness of `tick` (R106, D11, U14), and `freeTick` is under that law and no other. -/

/-- The level of a digital channel at an instant (R31). Log entry 3. -/
opaque Config.freeLevel : Nat → Byte → Bool

/-- The reading of an analog channel at an instant (R32). Log entry 3. -/
opaque Config.freeReading : Nat → Byte → Reading

/-- How many instants pass without a `tick` before the first one, and between the `k`-th one and the next
(R106): any number, but a number, so the next `tick` always comes (D11). Log entry 20. -/
opaque Config.freeGap : Nat → Nat

/-- Whether the reset event falls at an instant (R141). Log entry 3. -/
opaque Config.freeReset : Nat → Bool

/-- At an instant, the instants still to pass before the coming `tick`, and the number of the gap they are
in, when the gaps between `tick`s are `gap`. -/
def countdown (gap : Nat → Nat) : Nat → Nat × Nat
  | 0 => (gap 0, 0)
  | n + 1 =>
    match countdown gap n with
    | (0, k) => (gap (k + 1), k + 1)
    | (w + 1, k) => (w, k)

/-- The `tick`s with the given gaps. These are exactly the event sequences that recur for ever:
`ticks_recur` and `recurring_events_are_ticks` of Laws/Fairness.lean. -/
def ticks (gap : Nat → Nat) (n : Nat) : Bool := (countdown gap n).1 == 0

/-- Whether the polling period elapses at an instant (R106): free but for the weak fairness of D11.
Log entries 3 and 20. -/
def Config.freeTick : Nat → Bool := ticks Config.freeGap

end Sys2Proof
end

