-- ==== Sys2Proof/Syntax.lean ====
section
/-! DEFINITION. The rows of spec/opcode_table.json, one constructor each (R64). -/

namespace Sys2Proof

/-- The five operations of the block and the two frame kinds. Only the frame kinds have a binary encoding;
the block fetches nothing, its operations are selected by the sequencer and by the reset event (R46, R64). -/
inductive Instr where
  /-- frame 'B': the report of one edge of digital channel `i`, with the new level (R53). -/
  | frameB (i : Byte) (level : Bool)
  /-- frame 'P': the report of one raw reading `v` of analog channel `j` (R56). -/
  | frameP (j : Byte) (v : Reading)
  /-- `DSTEP i`: digital channel step (R70). -/
  | dstep (i : Byte)
  /-- `ASTEP j`: analog channel step (R80). -/
  | astep (j : Byte)
  /-- `FRAME c, i, d1, d2`: build one frame and hand it to the transport (R95). -/
  | frame (c i d1 d2 : Byte)
  /-- `POLL`: one whole polling cycle (R111). -/
  | poll
  /-- `RESET`: put the block in its initial state (R140). -/
  | reset
  deriving DecidableEq, Repr

end Sys2Proof
end

