-- ==== Sys2Proof/WellFormed.lean ====
section
/-! DEFINITION. Which instructions a configuration admits: channel indices in range and readings of `W` bits (R40, R60). -/

namespace Sys2Proof

/-- Why an instruction is not well formed under a configuration. -/
inductive IllFormed where
  /-- a digital index is not below `N` (R40) -/
  | digitalIndex
  /-- an analog index is not below `M` (R40) -/
  | analogIndex
  /-- a reading does not fit in `W` bits (R32, R60) -/
  | readingRange
  deriving DecidableEq, Repr

/-- The checks, by name. `FRAME` is defined for every combination of four bytes (R95, R98). -/
def Instr.check (c : Config) : Instr → Except IllFormed Unit
  | .frameB i _ => if i.toNat < c.N then .ok () else .error .digitalIndex
  | .frameP j v =>
    if j.toNat < c.M then (if v.toNat < 2 ^ c.W then .ok () else .error .readingRange)
    else .error .analogIndex
  | .dstep i => if i.toNat < c.N then .ok () else .error .digitalIndex
  | .astep j => if j.toNat < c.M then .ok () else .error .analogIndex
  | .frame _ _ _ _ => .ok ()
  | .poll => .ok ()
  | .reset => .ok ()

/-- An instruction that passes every check. -/
def Instr.wf (c : Config) (i : Instr) : Bool :=
  match i.check c with
  | .ok _ => true
  | .error _ => false

end Sys2Proof
end

