-- ==== Sys2Proof/Decode.lean ====
section
/-! DEFINITION. The frame format in bytes: checksum, split, decoder and encoder (R50 to R61, R95, R96). -/

namespace Sys2Proof

/-- `CMD_B`, the byte of ASCII 'B' (R51; the numeric code is general knowledge in the spec, D14). -/
def cmdB : Byte := 0x42

/-- `CMD_P`, the byte of ASCII 'P' (R51, D14). -/
def cmdP : Byte := 0x50

/-- The boolean level as a byte: 1 for true, 0 for false (R54). -/
def levelByte (level : Bool) : Byte := if level then 1 else 0

/-- The sum of the four bytes, taken as naturals, modulo 256 (R59, R96). -/
def checksum (c i d1 d2 : Byte) : Byte :=
  BitVec.ofNat 8 ((c.toNat + i.toNat + d1.toNat + d2.toNat) % 256)

/-- The frame that `FRAME c, i, d1, d2` builds (R95). -/
def mkFrame (c i d1 d2 : Byte) : Frame := ⟨c, i, d1, d2, checksum c i d1 d2⟩

/-- The five bytes of a frame, the first in time first (R35, R50). -/
def Frame.bytes (f : Frame) : List Byte := [f.command, f.index, f.data1, f.data2, f.checksum]

/-- The configuration function `split` (R56 for `nibble`, R57 for `le16`). -/
def split : Split → Reading → Byte × Byte
  | .nibble, v => ((v.extractLsb' 0 4).setWidth 8, v.extractLsb' 4 8)
  | .le16, v => (v.extractLsb' 0 8, (v.extractLsb' 8 4).setWidth 8)

/-- The reading a pair of data bytes carries; none where the block never produces the pair: the bits
above the nibble, or above bit 11 of the reading, are fixed 0 (R58, R60, U10). -/
def unsplit : Split → Byte → Byte → Option Reading
  | .nibble, d1, d2 =>
    if d1.toNat < 16 then some (BitVec.ofNat 12 (d1.toNat + 16 * d2.toNat)) else none
  | .le16, d1, d2 =>
    if d2.toNat < 16 then some (BitVec.ofNat 12 (d1.toNat + 256 * d2.toNat)) else none

/-- Why five bytes are no frame of this block (R60; U9 to U12: a decoder model refuses them). -/
inductive DecodeError where
  /-- fewer than five bytes (R61) -/
  | truncated
  /-- a command byte other than 'B' and 'P' (R51, U11) -/
  | unknownCommand
  /-- data1 of a 'B' frame is neither 0 nor 1 (R54, U10) -/
  | levelBits
  /-- data2 of a 'B' frame is not 0 (R55, U9) -/
  | unusedByte
  /-- the data bytes of a 'P' frame are not the split of a reading (R56, U10) -/
  | splitBits
  /-- the fifth byte is not the checksum of the other four (R59) -/
  | badChecksum
  deriving DecidableEq, Repr

/-- Decode one frame from the front of a byte stream; the rest of the stream is returned. A frame is
always five bytes (R61). -/
def decode (sp : Split) : List Byte → Except DecodeError (Instr × List Byte)
  | c :: i :: d1 :: d2 :: ck :: rest =>
    if c = cmdB then
      if d1 ≠ 0 ∧ d1 ≠ 1 then .error .levelBits
      else if d2 ≠ 0 then .error .unusedByte
      else if ck ≠ checksum c i d1 d2 then .error .badChecksum
      else .ok (.frameB i (d1 == 1), rest)
    else if c = cmdP then
      match unsplit sp d1 d2 with
      | none => .error .splitBits
      | some v =>
        if ck ≠ checksum c i d1 d2 then .error .badChecksum
        else .ok (.frameP i v, rest)
    else .error .unknownCommand
  | _ => .error .truncated

/-- The bytes of an instruction that has a binary encoding: the two frame kinds (R53, R56). The five
operations have none (R64). -/
def encode (sp : Split) : Instr → Option (List Byte)
  | .frameB i level => some (mkFrame cmdB i (levelByte level) 0).bytes
  | .frameP j v => some (mkFrame cmdP j (split sp v).1 (split sp v).2).bytes
  | .dstep _ => none
  | .astep _ => none
  | .frame _ _ _ _ => none
  | .poll => none
  | .reset => none

/-- The five bytes of a 40-bit word as the opcode table numbers its bits: byte 0, the first in time, in
bits 39:32, byte 4 in bits 7:0 (R50). Bits of `w` at `nbits` and above do not count. Log entry 8. -/
def tableBytes (nbits w : Nat) : List Byte :=
  [w % 2 ^ nbits / 2 ^ 32, w % 2 ^ nbits / 2 ^ 24, w % 2 ^ nbits / 2 ^ 16,
    w % 2 ^ nbits / 2 ^ 8, w % 2 ^ nbits].map (BitVec.ofNat 8)

/-- The instruction that the decoder reads from a word of the opcode table. The table's 'P' row is the
`NIBBLE` one. DESIGN CHOICE (log entry 8): a word is read so whatever split a block is configured with. -/
def decodeTableWord (nbits w : Nat) : Option Instr :=
  match decode .nibble (tableBytes nbits w) with
  | .ok (i, _) => some i
  | .error _ => none

end Sys2Proof
end

