-- ==== Sys2Proof/Machine/State.lean ====
section
/-! DEFINITION. The state of the block, plain data, and the state after reset (R10, R18, R22, R25). -/

namespace Sys2Proof.Machine

/-- The phases of the sequencer (R18). -/
inductive Phase where
  | wait
  | dig
  | ana
  deriving DecidableEq, Repr

/-- The sequencer position `(phase, idx)`, the block's counterpart of a program counter (R18). -/
structure Seq where
  phase : Phase
  idx   : Byte
  deriving DecidableEq, Repr

/-- `(WAIT, 0)`. -/
abbrev Seq.wait0 : Seq := ⟨.wait, 0⟩

/-- The positions `seq` takes: `(WAIT, 0)`, `(DIG, i)` with `i < N`, `(ANA, j)` with `j < M` (R18). -/
abbrev Seq.legal (c : Config) (q : Seq) : Prop :=
  (q.phase = .wait → q.idx = 0) ∧ (q.phase = .dig → q.idx.toNat < c.N) ∧
    (q.phase = .ana → q.idx.toNat < c.M)

/-- What the environment presents to the block at one instant: the events `tick` and `RESET`, the level
on each digital input and the reading on each analog input (R131). MODEL'S OWN (log entry 3). -/
structure Instant where
  tick  : Bool
  reset : Bool
  din   : List Bool
  ain   : List Reading
  deriving DecidableEq, Repr

/-- The state. `dlast`, `alast`, `decay` and `seq` are the whole architectural state (R10); `timer` is the
period timer of R24; `out` and `past` are the output history of R22; `cfg` is the record of R5, which no
operation writes; `stim` and `drawn` are the model's own, and stand for what the environment will present. -/
structure State where
  /-- the parameters (R5) -/
  cfg   : Config
  /-- the level each digital channel last took note of (R11) -/
  dlast : List Bool
  /-- the reading of each analog channel at its most recent excursion (R13) -/
  alast : List Reading
  /-- the decay counter of each analog channel (R14); a natural, as R5 and R17 allow (log entry 5) -/
  decay : List Nat
  /-- the sequencer position (R18) -/
  seq   : Seq
  /-- the period timer (R24): instants waited since the delay last restarted, 0 with a full period
  remaining; no rule reads it (log entry 6) -/
  timer : Nat
  /-- the frames handed to the transport since the last reset, oldest first (R22) -/
  out   : List Frame
  /-- the frames handed to the transport before the last reset, oldest first (R22, R141; log entry 7) -/
  past  : List Frame
  /-- MODEL'S OWN (log entry 3): what the environment presents at the coming instants, the present one
  first; past its end every level, reading and event is a free value -/
  stim  : List Instant
  /-- MODEL'S OWN (log entry 3): the number of the present instant, which the free values are drawn by -/
  drawn : Nat
  deriving DecidableEq, Repr

/-- Why the machine stops. No operation of the block faults (R120): the sequencer only ever names a
channel that exists. -/
inductive Fault where
  /-- Raised by `DSTEP i` for an `i` that is not below `N`: no such channel exists (R18, R40). Safe: the
  sequencer never selects one, so no run of the block reaches it (log entry 9). -/
  | noDigitalChannel (i : Byte)
  /-- Raised by `ASTEP j` for a `j` that is not below `M`: no such channel exists (R18, R40). Safe: the
  sequencer never selects one, so no run of the block reaches it (log entry 9). -/
  | noAnalogChannel (j : Byte)
  deriving DecidableEq, Repr

/-- What the model gives no meaning. No instruction is in that case. -/
inductive Refusal where
  /-- Raised by an arm of `exec` whose instruction has no meaning yet; none is left. Safe. -/
  | notModelled (mnemonic : String)
  deriving DecidableEq, Repr

/-- The state after `RESET` of a block built with configuration `c` (R25, R140). -/
def State.resetOf (c : Config) : State where
  cfg := c
  dlast := List.replicate c.N c.DSEED
  alast := List.replicate c.M 0
  decay := List.replicate c.M 0
  seq := .wait0
  timer := 0
  out := []
  past := []
  stim := []
  drawn := 0

/-- The machine right after reset, with the configuration of log entry 2. -/
def State.reset : State := State.resetOf Config.atReset

end Sys2Proof.Machine
end

