-- ==== Sys2Proof/Machine/Ops.lean ====
section
/-! DEFINITION. The named operations over the register arrays, the output stream and the draws (R8, R9, R33).
There is no memory (R30) and no exception to take or to return from (R120, R125, R126): none is written here. -/

namespace Sys2Proof.Machine

/-- `dlast[i]`. -/
def State.dlastAt (s : State) (i : Byte) : Bool := s.dlast.getD i.toNat false

/-- `alast[j]`. -/
def State.alastAt (s : State) (j : Byte) : Reading := s.alast.getD j.toNat 0

/-- `decay[j]`. -/
def State.decayAt (s : State) (j : Byte) : Nat := s.decay.getD j.toNat 0

/-- `dlast[i] <- x`. -/
def State.setDlast (i : Byte) (x : Bool) (s : State) : State :=
  { s with dlast := s.dlast.set i.toNat x }

/-- `alast[j] <- v`. -/
def State.setAlast (j : Byte) (v : Reading) (s : State) : State :=
  { s with alast := s.alast.set j.toNat v }

/-- `decay[j] <- n`. -/
def State.setDecay (j : Byte) (n : Nat) (s : State) : State :=
  { s with decay := s.decay.set j.toNat n }

/-- `Emit(f)`: one atomic write of the whole frame, which never blocks and never fails (R33). -/
def State.emit (f : Frame) (s : State) : State := { s with out := s.out ++ [f] }

/-- The present instant is over: what it presented is used up, and the next one is drawn (R36, R39). -/
def State.nextInstant (s : State) : State :=
  { s with stim := s.stim.tail, drawn := s.drawn + 1 }

/-- `seq <- q`. A move of the sequencer leaves the delay or begins a new full one (R106, R110). -/
def State.moveTo (q : Seq) (s : State) : State := { s with seq := q, timer := 0 }

/-- The bytes handed to the transport so far, the first in time first: the frames one after another with
nothing between them (R33, R37, R100). -/
def State.stream (s : State) : List Byte := (s.past ++ s.out).flatMap Frame.bytes

/-- The shared operation behind `FRAME`: build the frame with its checksum and emit it (R95). -/
def State.emitFrame (c i d1 d2 : Byte) (s : State) : State := s.emit (mkFrame c i d1 d2)

/-- Carry on from a next state; a fault or a refusal ends it. -/
def andThen (o : Host.Outcome State Fault Refusal) (k : State → Host.Outcome State Fault Refusal) :
    Host.Outcome State Fault Refusal :=
  match o with
  | .next s => k s
  | .fault r => .fault r
  | .refused r => .refused r

/-- `for i in ids do op(i)`, in the order of the list (R107, R111). -/
def scan (op : Byte → State → Host.Outcome State Fault Refusal) :
    List Byte → State → Host.Outcome State Fault Refusal
  | [], s => .next s
  | i :: ids, s => andThen (op i s) (scan op ids)

/-- The indices of `n` channels, ascending (R40, R107). -/
def channels (n : Nat) : List Byte := (List.range n).map (BitVec.ofNat 8)

end Sys2Proof.Machine
end

