-- ==== Sys2Proof/Machine/Operands.lean ====
section
/-! DEFINITION. The operands of the operations: input reads and events of the present instant, the exact
distance of two readings, and the split of a reading (R7, R31, R32, R83, R56). -/

namespace Sys2Proof.Machine

/-- A reading on `W` wires: bits at `W` and above do not exist (R32). -/
def narrow (w : Nat) (v : Reading) : Reading := BitVec.ofNat 12 (v.toNat % 2 ^ w)

/-- `DIn(i)`: the level of digital channel `i` now; a free value where the stimulus gives none (R31). -/
def State.dIn (s : State) (i : Byte) : Bool :=
  (s.stim.head?.bind fun e => e.din[i.toNat]?).getD (Config.freeLevel s.drawn i)

/-- `AIn(j)`: the `W`-bit reading of analog channel `j` now; a free value where the stimulus gives none (R32). -/
def State.aIn (s : State) (j : Byte) : Reading :=
  narrow s.cfg.W ((s.stim.head?.bind fun e => e.ain[j.toNat]?).getD (Config.freeReading s.drawn j))

/-- Whether the polling period elapses now (R106); past the end of the stimulus a free value under the weak
fairness of D11 (log entry 20). -/
def State.tickNow (s : State) : Bool := (s.stim.head?.map Instant.tick).getD (Config.freeTick s.drawn)

/-- Whether the reset event falls now (R141); a free value past the end of the stimulus. -/
def State.resetNow (s : State) : Bool := (s.stim.head?.map Instant.reset).getD (Config.freeReset s.drawn)

/-- `absdiff(a, b)`: the exact difference of two naturals, without wrap (R7, R83). -/
def absdiff (a b : Nat) : Nat := if b ≤ a then a - b else b - a

end Sys2Proof.Machine
end

