-- ==== Sys2Proof/Machine/Flags.lean ====
section
/-! DEFINITION. The three conditions computed inside a channel step and not stored (R19). -/

namespace Sys2Proof.Machine

/-- `edge`: the level read differs from `dlast[i]` (R19, R70). -/
def edge (s : State) (i : Byte) (x : Bool) : Bool := x != s.dlastAt i

/-- `exc`: the reading differs from `alast[j]` by more than `THRESHOLD`, strictly (R19, R83). -/
def exc (s : State) (j : Byte) (v : Reading) : Bool :=
  decide (s.cfg.THRESHOLD < absdiff v.toNat (s.alastAt j).toNat)

/-- `act`: the counter, after the effect of `exc`, is above 1 (R19, R81). -/
def act (c1 : Nat) : Bool := decide (1 < c1)

end Sys2Proof.Machine
end

