-- ==== Sys2Proof/Machine/Encoder.lean ====
section
/-! DEFINITION. The fixed-frame encoder: `FRAME`, and the two frame kinds (R53, R56, R95). -/

namespace Sys2Proof.Machine

/-- `FRAME c, i, d1, d2`: total on any four bytes; writes no register (R95, R98). -/
def execFrame (c i d1 d2 : Byte) (s : State) : Host.Outcome State Fault Refusal :=
  .next (s.emitFrame c i d1 d2)

/-- frame 'B': the frame with command 'B', the index, the new level and an unused 0, handed to the
transport (R53 to R55). Log entry 4. DESIGN CHOICE (log entry 21): also for an `i` that names no channel,
where the spec only says that the block sends no such frame (R60, R98). -/
def execFrameB (i : Byte) (level : Bool) (s : State) : Host.Outcome State Fault Refusal :=
  .next (s.emitFrame cmdB i (levelByte level) 0)

/-- frame 'P': the frame with command 'P', the index and the split of the reading, handed to the
transport (R56). Log entry 4. DESIGN CHOICE (log entry 21): also for a `j` that names no channel and for a
reading with a bit above `v[W-1]`, where the spec only says that the block sends no such frame (R60, R98). -/
def execFrameP (j : Byte) (v : Reading) (s : State) : Host.Outcome State Fault Refusal :=
  .next (s.emitFrame cmdP j (split s.cfg.SPLIT v).1 (split s.cfg.SPLIT v).2)

end Sys2Proof.Machine
end

