-- ==== Sys2Proof/Machine/Analog.lean ====
section
/-! DEFINITION. The analog threshold comparator with decay counter, `ASTEP` (R80). -/

namespace Sys2Proof.Machine

/-- `a1`: the comparison reference after the effect of `exc` (R80). -/
def reference (s : State) (j : Byte) (v : Reading) : Reading := if exc s j v then v else s.alastAt j

/-- `c1`: the decay counter after the effect of `exc` (R80, R81, R84). -/
def counter (s : State) (j : Byte) (v : Reading) : Nat :=
  if exc s j v then s.cfg.IDLE_TIMEOUT else s.decayAt j

/-- The report of an active cycle: one 'P' frame with the fresh reading (R80, R82). -/
def State.report (j : Byte) (v : Reading) (s : State) : State :=
  s.emitFrame cmdP j (split s.cfg.SPLIT v).1 (split s.cfg.SPLIT v).2

/-- The effect of `ASTEP j` when the reading is `v` (R80). -/
def State.analog (j : Byte) (v : Reading) (s : State) : State :=
  let a1 := reference s j v
  let c1 := counter s j v
  if act c1 then ((s.report j v).setAlast j a1).setDecay j (c1 - 1)
  else (s.setAlast j a1).setDecay j c1

/-- `ASTEP j`: one read of `AIn(j)`, then the effect, all together (R80). -/
def execAstep (j : Byte) (s : State) : Host.Outcome State Fault Refusal :=
  if j.toNat < s.cfg.M then .next (s.analog j (s.aIn j)).nextInstant
  else .fault (.noAnalogChannel j)

end Sys2Proof.Machine
end

