-- ==== Sys2Proof/Machine/Digital.lean ====
section
/-! DEFINITION. The digital edge detector, `DSTEP` (R70). -/

namespace Sys2Proof.Machine

/-- The effect of `DSTEP i` when the level read is `x` (R70). -/
def State.digital (i : Byte) (x : Bool) (s : State) : State :=
  if edge s i x then (s.setDlast i x).emitFrame cmdB i (levelByte x) 0 else s

/-- `DSTEP i`: one read of `DIn(i)`; on an edge, store the level and emit one 'B' frame, together (R70). -/
def execDstep (i : Byte) (s : State) : Host.Outcome State Fault Refusal :=
  if i.toNat < s.cfg.N then .next (s.digital i (s.dIn i)).nextInstant
  else .fault (.noDigitalChannel i)

end Sys2Proof.Machine
end

