-- ==== Sys2Proof/Machine/Reset.lean ====
section
/-! DEFINITION. `RESET`, and building a block from a configuration (R5, R25, R140). -/

namespace Sys2Proof.Machine

/-- `RESET`: all writes together; emits nothing and reads no input. Frames already handed over stay so:
they move to `past`, and a new `out` begins (R22, R140, R141). -/
def execReset (s : State) : Host.Outcome State Fault Refusal :=
  .next { s with
    dlast := List.replicate s.cfg.N s.cfg.DSEED
    alast := List.replicate s.cfg.M 0
    decay := List.replicate s.cfg.M 0
    seq := .wait0
    timer := 0
    past := s.past ++ s.out
    out := [] }

/-- The constraints of R5, each refused by name when the model is built (D16). -/
def checkConfig (c : Config) : Except ConfigError Unit :=
  if 256 < c.N then .error .tooManyDigitalChannels
  else if 256 < c.M then .error .tooManyAnalogChannels
  else if c.W = 0 ∨ 12 < c.W then .error .readingWidth
  else if c.DW = 0 then .error .counterWidth
  else if 2 ^ c.DW ≤ c.IDLE_TIMEOUT then .error .timeoutTooLong
  else .ok ()

/-- Power-on of a block built with `c`: a `RESET`, unless the configuration is refused (R5, R140). -/
def boot (c : Config) : Except ConfigError State :=
  match checkConfig c with
  | .ok _ => .ok (State.resetOf c)
  | .error e => .error e

end Sys2Proof.Machine
end

