-- ==== Sys2Proof/Machine/Sequencer.lean ====
section
/-! DEFINITION. The polling sequencer: what comes next, the moves of `seq`, and `POLL` (R64, R105 to R111). -/

namespace Sys2Proof.Machine

/-- Where the sequencer goes from the wait, on `tick` (R106). -/
def afterWait (c : Config) : Seq :=
  if 0 < c.N then ⟨.dig, 0⟩ else if 0 < c.M then ⟨.ana, 0⟩ else .wait0

/-- Where it goes after `DSTEP i` (R108). -/
def afterDig (c : Config) (i : Byte) : Seq :=
  if i.toNat + 1 < c.N then ⟨.dig, i + 1⟩ else if 0 < c.M then ⟨.ana, 0⟩ else .wait0

/-- Where it goes after `ASTEP j` (R109). -/
def afterAna (c : Config) (j : Byte) : Seq :=
  if j.toNat + 1 < c.M then ⟨.ana, j + 1⟩ else .wait0

/-- The operation that is next (R64, column "selected by"): `RESET` wins over everything (R124); in the
wait none is selected, the sequencer itself awaits `tick` (R106). -/
def State.selected (s : State) : Option Instr :=
  if s.resetNow then some .reset
  else
    match s.seq.phase with
    | .wait => none
    | .dig => some (.dstep s.seq.idx)
    | .ana => some (.astep s.seq.idx)

/-- In the wait, without a reset: leave it on `tick`, else do nothing while time passes (R106). A `tick`
outside the wait is not looked at (D21). -/
def State.await (s : State) : State :=
  (if s.tickNow then s.moveTo (afterWait s.cfg) else { s with timer := s.timer + 1 }).nextInstant

/-- What the sequencer does after the selected operation (R108, R109). The channel steps have used up the
instant by reading it; after `RESET` it is used up here, and with it a simultaneous `tick` (R124). The
other instructions are never selected. -/
def State.advance (i : Instr) (t : State) : State :=
  match i with
  | .dstep k => t.moveTo (afterDig t.cfg k)
  | .astep k => t.moveTo (afterAna t.cfg k)
  | .reset => t.nextInstant
  | .frameB _ _ => t
  | .frameP _ _ => t
  | .frame _ _ _ _ => t
  | .poll => t

/-- `POLL`: every digital channel ascending, then every analog channel ascending (R111). `seq` is not
moved; a new full delay begins (R110). That it runs in `(WAIT, 0)` on `tick` is its selection, not its effect. -/
def execPoll (s : State) : Host.Outcome State Fault Refusal :=
  andThen (scan execDstep (channels s.cfg.N) s) fun t =>
    andThen (scan execAstep (channels s.cfg.M) t) fun u => .next { u with timer := 0 }

/-- What the environment presents to `s` now, written out. -/
def State.presented (s : State) : Instant :=
  ⟨s.tickNow, s.resetNow, (channels s.cfg.N).map s.dIn, (channels s.cfg.M).map s.aIn⟩

/-- The state in which the sequencer's next step is the channel step that produces the frame `i`: the
channel selected, no reset, and the input and the channel's registers such that the channel reports
exactly this frame (R70, R80). Other instructions have no word and change nothing. Log entry 8. -/
def State.poised (i : Instr) (s : State) : State :=
  match i with
  | .frameB k level =>
    { s with
      seq := ⟨.dig, k⟩
      dlast := s.dlast.set k.toNat (!level)
      stim := { s.presented with
        reset := false, din := s.presented.din.set k.toNat level } :: s.stim.tail }
  | .frameP k v =>
    { s with
      seq := ⟨.ana, k⟩
      alast := s.alast.set k.toNat v
      decay := s.decay.set k.toNat 2
      stim := { s.presented with
        reset := false, ain := s.presented.ain.set k.toNat v } :: s.stim.tail }
  | .dstep _ => s
  | .astep _ => s
  | .frame _ _ _ _ => s
  | .poll => s
  | .reset => s

end Sys2Proof.Machine
end

