-- ==== Sys2Proof/Machine/Dispatch.lean ====
section
/-! DEFINITION. The meaning of every instruction, one arm per constructor. -/

namespace Sys2Proof.Machine

def exec (i : Instr) (s : State) : Host.Outcome State Fault Refusal :=
  match i with
  | .frameB k level => Sys2Proof.Machine.execFrameB k level s
  | .frameP j v => Sys2Proof.Machine.execFrameP j v s
  | .dstep k => Sys2Proof.Machine.execDstep k s
  | .astep j => Sys2Proof.Machine.execAstep j s
  | .frame c k d1 d2 => Sys2Proof.Machine.execFrame c k d1 d2 s
  | .poll => Sys2Proof.Machine.execPoll s
  | .reset => Sys2Proof.Machine.execReset s

end Sys2Proof.Machine
end

