-- ==== Sys2Proof/Machine/Step.lean ====
section
/-! DEFINITION. One step of the sequencer, the step of a whole cycle, and the place a table word takes. -/

namespace Sys2Proof.Machine

/-- One step of the block at one instant of the environment: the selected operation and the move of the
sequencer after it, or the wait (R106, R108, R109, R141). -/
def step (s : State) : Host.Outcome State Fault Refusal :=
  match s.selected with
  | none => .next s.await
  | some i => andThen (exec i s) fun t => .next (t.advance i)

/-- The coarse step of R111: in the wait, `RESET`, or a whole `POLL` on `tick`, or nothing. In the middle of
a scan, where no coarse run ever is, it is the fine step. -/
def cycleStep (s : State) : Host.Outcome State Fault Refusal :=
  if s.resetNow = false ∧ s.seq.phase = .wait ∧ s.tickNow = true then exec .poll s.nextInstant
  else step s

/-- The block fetches nothing (R46): a frame word is what a channel step PRODUCES. So `s` with a frame word
"where step fetches its next instruction" is `s` poised to produce exactly that frame by its next step.
DESIGN CHOICE (log entry 8): the spec has no such placing, and does not say what a word does that is no frame
of this block (R60: an index that is no channel, a reading with a bit above `v[W-1]`); here it changes nothing.
DESIGN CHOICE (log entry 8): the word is read under `NIBBLE`, as the table writes it, whatever `SPLIT` is. On a
block with `SPLIT = LE16` a 'P' word so poises the block to send the `LE16` frame of the same reading, which has
other bytes than the word, and a word that is no `NIBBLE` frame changes nothing. -/
def State.withFetchWord (s : State) (nbits w : Nat) : State :=
  match decodeTableWord nbits w with
  | some i => if i.wf s.cfg then s.poised i else s
  | none => s

end Sys2Proof.Machine
end

