-- ==== Sys2Proof/Safety.lean ====
section
/-! DEFINITION. The terms claims are stated in: legal states, frames the block may produce, and runs.
Written from the rules of the spec, apart from the operations of Machine/, so that a claim can be false of them. -/

namespace Sys2Proof

/-! ### Frames -/

/-- The checksum equation of R59, on naturals. -/
abbrev Frame.sums (f : Frame) : Prop :=
  (f.command.toNat + f.index.toNat + f.data1.toNat + f.data2.toNat) % 256 = f.checksum.toNat

/-- Four bytes and their sum in an 8-bit register with the carries dropped (R96). -/
def summed (c i d1 d2 : Byte) : Frame := ⟨c, i, d1, d2, c + i + d1 + d2⟩

/-- The 'B' frame for channel `i` and the new level `x` (R53 to R55). -/
def buttonFrame (i : Byte) (x : Bool) : Frame := summed 0x42 i (if x then 0x01 else 0x00) 0x00

/-- The 'P' frame for channel `j` and the reading `v`, by arithmetic: remainder and quotient (R56, R57). -/
def potFrame (sp : Split) (j : Byte) (v : Nat) : Frame :=
  match sp with
  | .nibble => summed 0x50 j (BitVec.ofNat 8 (v % 16)) (BitVec.ofNat 8 (v / 16))
  | .le16 => summed 0x50 j (BitVec.ofNat 8 (v % 256)) (BitVec.ofNat 8 (v / 256))

/-- The reading two data bytes carry (R58, R57). -/
def carried (sp : Split) (d1 d2 : Byte) : Nat :=
  match sp with
  | .nibble => d1.toNat + 16 * d2.toNat
  | .le16 => d1.toNat + 256 * d2.toNat

/-- The frames the block produces (R60). -/
abbrev Frame.producible (c : Config) (f : Frame) : Prop :=
  f.sums ∧
    ((f.command = 0x42 ∧ f.index.toNat < c.N ∧ f.data1.toNat ≤ 1 ∧ f.data2 = 0x00) ∨
     (f.command = 0x50 ∧ f.index.toNat < c.M ∧ (c.SPLIT = .nibble → f.data1.toNat ≤ 0x0F) ∧
      carried c.SPLIT f.data1 f.data2 < 2 ^ c.W))

/-- The order of frames within one cycle: 'B' before 'P', and ascending index within a kind (R43). -/
abbrev Frame.before (f g : Frame) : Prop :=
  (f.command = 0x42 ∧ g.command = 0x50) ∨ (f.command = g.command ∧ f.index.toNat < g.index.toNat)

/-- The frames a byte stream holds, for a receiver that knows the size and starts at a frame boundary
(R37, R61, R62). -/
def framesIn : List Byte → Option (List Frame)
  | [] => some []
  | b0 :: b1 :: b2 :: b3 :: b4 :: rest => (framesIn rest).map (⟨b0, b1, b2, b3, b4⟩ :: ·)
  | _ => none

/-- The levels reported for digital channel `i`, oldest first (R12). -/
def levelsOf (i : Byte) (fs : List Frame) : List Bool :=
  fs.filterMap fun f => if f.command = 0x42 ∧ f.index = i then some (f.data1 == 0x01) else none

/-- Each level is the opposite of the one before it, the first of `seed` (R75). -/
def alternates : Bool → List Bool → Bool
  | _, [] => true
  | seed, x :: xs => (x == !seed) && alternates x xs

end Sys2Proof

namespace Sys2Proof.Machine

/-! ### States -/

/-- A state the block can be in: a configuration R5 admits, arrays of its sizes (R10), readings of `W` bits
(R13, R32), counters between 0 and `IDLE_TIMEOUT` (R17) and a legal sequencer position (R18). -/
abbrev State.wf (s : State) : Prop :=
  s.cfg.wf ∧ s.dlast.length = s.cfg.N ∧ s.alast.length = s.cfg.M ∧ s.decay.length = s.cfg.M ∧
    (s.alast.all fun v => v.toNat < 2 ^ s.cfg.W) = true ∧
    (∀ d ∈ s.decay, d ≤ s.cfg.IDLE_TIMEOUT) ∧ s.seq.legal s.cfg

/-- Every frame handed to the transport, before and since the last reset (R22). -/
abbrev State.sent (s : State) : List Frame := s.past ++ s.out

/-- The state a step ends in, if it ends in one. -/
def nextOf : Host.Outcome State Fault Refusal → Option State
  | .next s => some s
  | .fault _ => none
  | .refused _ => none

/-- `dlast[i]` is the level last reported since the reset, or the seed (R12), and the levels reported since
the reset alternate (R75). -/
abbrev State.tells (s : State) : Prop :=
  ∀ i : Byte, i.toNat < s.cfg.N →
    s.dlastAt i = (levelsOf i s.out).getLastD s.cfg.DSEED ∧
      alternates s.cfg.DSEED (levelsOf i s.out) = true

/-! ### Comparison and runs -/

/-- The magnitude of a difference, as max less min (R83). -/
def distance (a b : Nat) : Nat := max a b - min a b

/-- `s` with its environment moved on by `k` instants: what the `k`-th read from now on sees. -/
def State.ahead (k : Nat) (s : State) : State :=
  { s with stim := s.stim.drop k, drawn := s.drawn + k }

/-- The state after reset of a block built with `c`, in an environment that will present `stim` and then the
free values from instant `k + stim.length` on. -/
def State.resetIn (c : Config) (stim : List Instant) (k : Nat) : State :=
  { State.resetOf c with stim := stim, drawn := k }

/-- `k` steps, to the first that does not end in a next state. -/
def steps : Nat → State → Host.Outcome State Fault Refusal
  | 0, s => .next s
  | k + 1, s => andThen (step s) (steps k)

/-- One instruction `k` times in a row: what `k` polling cycles do to the one channel they visit each time. -/
def execTimes (i : Instr) : Nat → State → Host.Outcome State Fault Refusal
  | 0, s => .next s
  | k + 1, s => andThen (exec i s) (execTimes i k)

/-- The weak fairness of `tick` (R106, D11): however far a run from `s` has gone, it comes again to the wait
at an instant at which `tick` occurs. A `tick` outside the wait does not count, for none occurs there (D21). -/
def State.tickRecurs (s : State) : Prop :=
  ∀ n, ∃ m t, n ≤ m ∧ steps m s = .next t ∧ t.seq = ⟨.wait, 0⟩ ∧ t.tickNow = true

end Sys2Proof.Machine
end

