-- ==== Sys2Proof/Certificates/Slice0/Obligations.lean ====
section
/-! DEFINITION. The statements for the provers. -/

open Sys2Proof Sys2Proof.Machine

/-! ### Reset, configuration, legal states -/

/-- The state after reset is legal and starts the record of reported levels, for every configuration R5
admits, and for the one `State.reset` has. Which values these are is the spec's own decision (R25: D2, D3,
D10); the configuration of `State.reset` is log entry 2. -/
def Obligations.ResetStateIsLegal : Prop :=
  (∀ c : Config, c.wf → (State.resetOf c).wf ∧ (State.resetOf c).tells) ∧
    State.reset.wf ∧ State.reset.tells

/-- Power-on gives the state after reset for exactly the configurations that meet the constraints of R5;
every other one is refused when the model is built (D16, the spec's decision). -/
def Obligations.BootRefusesExactlyTheBadConfigurations : Prop :=
  ∀ (c : Config) (s : State), boot c = .ok s ↔ c.wf ∧ s = State.resetOf c

/-- `RESET` completes in every state; every register takes its reset value, frames already handed over stay
handed over, nothing is emitted, no input is read. (R140 and R25 are marked as decisions: D2, D3, D13; that
`out` starts afresh and its frames move to `past` is log entry 7.) -/
def Obligations.ResetWritesEveryRegister : Prop :=
  ∀ s : State, ∃ t, exec .reset s = .next t ∧
    t.dlast = List.replicate s.cfg.N s.cfg.DSEED ∧ t.alast = List.replicate s.cfg.M 0 ∧
    t.decay = List.replicate s.cfg.M 0 ∧ t.seq = ⟨.wait, 0⟩ ∧ t.timer = 0 ∧
    t.sent = s.sent ∧ t.out = [] ∧ t.cfg = s.cfg ∧ t.stim = s.stim ∧ t.drawn = s.drawn

/-- Two resets in a row equal one, and `RESET` in the state after reset changes nothing (R140, corner cases
(a) and (e); a decision of the spec, D13). -/
def Obligations.ResetIsIdempotent : Prop :=
  (∀ s t : State, exec .reset s = .next t → exec .reset t = .next t) ∧
    ∀ c : Config, exec .reset (State.resetOf c) = .next (State.resetOf c)

/-- A reset event wins over a simultaneous `tick` and over the channel step that was next, in any phase:
the step is `RESET` and nothing else, and the `tick` is used up (R124, R141; decisions D13, D20). -/
def Obligations.ResetEventWinsInEveryPhase : Prop :=
  ∀ s : State, s.resetNow = true → ∃ t, exec .reset s = .next t ∧
    step s = .next { t with stim := s.stim.tail, drawn := s.drawn + 1 }

/-- Until the first `tick` the block after reset does nothing: whatever the inputs are, no frame, no
register written, only time passes (R115, R144: the spec's inferences). -/
def Obligations.NothingIsSentBeforeTheFirstTick : Prop :=
  ∀ (c : Config) (n k : Nat) (stim : List Instant),
    (∀ m, m < n → ((State.resetIn c stim k).ahead m).tickNow = false ∧
      ((State.resetIn c stim k).ahead m).resetNow = false) →
    steps n (State.resetIn c stim k) =
      .next { State.resetIn c (stim.drop n) (k + n) with timer := n }

/-- THE INVARIANT OF THE MACHINE: every step from a legal state ends in a legal state of the same
configuration: array sizes (R10), readings of `W` bits (R13), `0 <= decay[j] <= IDLE_TIMEOUT` (R17) and the
legal positions of `seq` (R18). -/
def Obligations.StepKeepsStatesLegal : Prop :=
  ∀ s t : State, s.wf → step s = .next t → t.wf ∧ t.cfg = s.cfg

/-- No fault, no refusal: in every state the block can be in, and for every input draw (the draws stand in
the state), the step answers a next state. -/
def Obligations.StepNeverFaultsOrRefuses : Prop :=
  ∀ s : State, s.wf → ∃ t, step s = .next t

/-- The parameters are constants: no instruction and no step writes one (R20, R5; decision D15). -/
def Obligations.NoInstructionWritesAParameter : Prop :=
  (∀ (i : Instr) (s t : State), exec i s = .next t → t.cfg = s.cfg) ∧
    ∀ s t : State, step s = .next t → t.cfg = s.cfg

/-! ### The sequencer -/

/-- THE STEP RUNS THE SELECTED OPERATION. In a scan, without a reset event, `step` is `exec` of the channel
step that `seq` selects, followed by the move of `seq`; a stop of `exec` is the step's stop. That a move
also restarts the delay counter `timer` is the model's own (log entry 6). -/
def Obligations.StepRunsTheSelectedChannelStep : Prop :=
  (∀ (s : State) (i : Byte), s.resetNow = false → s.seq = ⟨.dig, i⟩ →
    (∀ t, exec (.dstep i) s = .next t → step s = .next { t with
      timer := 0
      seq := if i.toNat + 1 < t.cfg.N then ⟨.dig, i + 1⟩
             else if 0 < t.cfg.M then ⟨.ana, 0⟩ else ⟨.wait, 0⟩ }) ∧
    (∀ r, exec (.dstep i) s = .fault r → step s = .fault r)) ∧
  (∀ (s : State) (j : Byte), s.resetNow = false → s.seq = ⟨.ana, j⟩ →
    (∀ t, exec (.astep j) s = .next t → step s = .next { t with
      timer := 0
      seq := if j.toNat + 1 < t.cfg.M then ⟨.ana, j + 1⟩ else ⟨.wait, 0⟩ }) ∧
    (∀ r, exec (.astep j) s = .fault r → step s = .fault r))

/-- In the wait, without a reset event: `tick` moves `seq` to the first channel that exists and changes
nothing else; without `tick` nothing changes but the time waited (R106; the event `tick` is decision D11,
`timer` log entry 6). The instant is used up. -/
def Obligations.TheWaitIsLeftByTickAlone : Prop :=
  ∀ s : State, s.resetNow = false → s.seq.phase = .wait →
    (s.tickNow = true → step s = .next { s with
      seq := if 0 < s.cfg.N then ⟨.dig, 0⟩ else if 0 < s.cfg.M then ⟨.ana, 0⟩ else ⟨.wait, 0⟩
      timer := 0, stim := s.stim.tail, drawn := s.drawn + 1 }) ∧
    (s.tickNow = false → step s = .next { s with
      timer := s.timer + 1, stim := s.stim.tail, drawn := s.drawn + 1 })

/-- Which operation comes next depends on `N`, `M`, the position and the events alone: two blocks with the
same number of channels, at the same position, under the same events, go to the same position, whatever
their registers, inputs and other parameters are. -/
def Obligations.TheNextOperationDoesNotDependOnData : Prop :=
  ∀ s s' t t' : State, s.cfg.N = s'.cfg.N → s.cfg.M = s'.cfg.M → s.seq = s'.seq →
    s.resetNow = s'.resetNow → s.tickNow = s'.tickNow →
    step s = .next t → step s' = .next t' → t.seq = t'.seq

/-- Only the sequencer and `RESET` move `seq`: there is no branch, jump, call or return (R113, an inference
of the spec). -/
def Obligations.NoOtherInstructionMovesSeq : Prop :=
  ∀ (i : Instr) (s t : State), i ≠ .reset → exec i s = .next t → t.seq = s.seq

/-- Every step uses up exactly one instant of the environment, so no reading is stable from step to step.
(The model's own way to draw inputs, log entry 3.) -/
def Obligations.EveryStepUsesUpOneInstant : Prop :=
  ∀ s t : State, step s = .next t → t.stim = s.stim.tail ∧ t.drawn = s.drawn + 1

/-- `POLL` completes in every legal state, performs every channel step once on the reading of its own
instant, digital channels ascending and then analog channels ascending, and touches nothing else; the
coarse step performs it in `(WAIT, 0)` when the period has elapsed. (The model's own: that it is performed
whatever `seq` is and leaves it (log entry 14), the `timer` (log entry 6), the instants used up (log entry 3).) -/
def Obligations.PollPerformsEveryChannelStepInOrder : Prop :=
  (∀ s : State, s.resetNow = false → s.seq = ⟨.wait, 0⟩ → s.tickNow = true →
    cycleStep s = exec .poll (s.ahead 1)) ∧
  ∀ s : State, s.wf → ∃ t, exec .poll s = .next t ∧
    t.cfg = s.cfg ∧ t.seq = s.seq ∧ t.past = s.past ∧ t.timer = 0 ∧
    t.stim = s.stim.drop (s.cfg.N + s.cfg.M) ∧ t.drawn = s.drawn + (s.cfg.N + s.cfg.M) ∧
    (∀ i : Byte, i.toNat < s.cfg.N → t.dlastAt i = (s.ahead i.toNat).dIn i) ∧
    (∀ j : Byte, j.toNat < s.cfg.M →
      let v := (s.ahead (s.cfg.N + j.toNat)).aIn j
      let moved := s.cfg.THRESHOLD < distance v.toNat (s.alastAt j).toNat
      let c1 := if moved then s.cfg.IDLE_TIMEOUT else s.decayAt j
      t.alastAt j = (if moved then v else s.alastAt j) ∧
        t.decayAt j = if 1 < c1 then c1 - 1 else c1) ∧
    t.out = s.out ++
      ((List.range s.cfg.N).flatMap fun n =>
        let i := BitVec.ofNat 8 n
        let x := (s.ahead n).dIn i
        if x ≠ s.dlastAt i then [buttonFrame i x] else []) ++
      ((List.range s.cfg.M).flatMap fun n =>
        let j := BitVec.ofNat 8 n
        let v := (s.ahead (s.cfg.N + n)).aIn j
        if 1 < (if s.cfg.THRESHOLD < distance v.toNat (s.alastAt j).toNat
            then s.cfg.IDLE_TIMEOUT else s.decayAt j)
          then [potFrame s.cfg.SPLIT j v.toNat] else [])

/-- THE TWO GRANULARITIES AGREE (R112, an inference of the spec): from `(WAIT, 0)`, with the `tick` now and
no reset before the scan is over, the `1 + N + M` single steps end in the very state of one `POLL`. -/
def Obligations.SingleStepsOfACycleEqualOnePoll : Prop :=
  ∀ s : State, s.wf → s.seq = ⟨.wait, 0⟩ → s.tickNow = true →
    (∀ k, k < 1 + s.cfg.N + s.cfg.M → (s.ahead k).resetNow = false) →
    steps (1 + s.cfg.N + s.cfg.M) s = exec .poll (s.ahead 1)

/-- The weak fairness of `tick` that the spec gives the model (R106; decision D11) holds of every run from a
legal state, whatever the written stimulus is, wherever resets fall and however long the free delays are. That
the model has it as a property of its free values is log entry 20. -/
def Obligations.TickRecursInEveryRun : Prop :=
  ∀ s : State, s.wf → s.tickRecurs

/-- THE LOOP RUNS FOR EVER (R105, R114, by the fairness of D11, log entry 20): however far a run from a legal
state has gone, each channel's step comes up again, unless a reset event falls first. So a run in which resets
cease visits every channel without end. -/
def Obligations.EveryChannelComesUpAgain : Prop :=
  ∀ s : State, s.wf → ∀ n : Nat,
    (∀ i : Byte, i.toNat < s.cfg.N → ∃ m t, n ≤ m ∧ steps m s = .next t ∧
      (t.resetNow = true ∨ t.seq = ⟨.dig, i⟩)) ∧
    ∀ j : Byte, j.toNat < s.cfg.M → ∃ m t, n ≤ m ∧ steps m s = .next t ∧
      (t.resetNow = true ∨ t.seq = ⟨.ana, j⟩)

/-- One cycle appends at most `N + M` frames, at most one per channel, 'B' frames in ascending index before
'P' frames in ascending index (R43, an inference of the spec). -/
def Obligations.ACycleAppendsOrderedFrames : Prop :=
  ∀ s t : State, s.cfg.wf → exec .poll s = .next t → ∃ fs : List Frame,
    t.out = s.out ++ fs ∧ fs.length ≤ s.cfg.N + s.cfg.M ∧ fs.Pairwise Frame.before

/-! ### The digital edge detector -/

/-- `DSTEP i` on a channel that exists completes in every state: one read; on an edge, and only then, the
level is stored and one 'B' frame with the new level is emitted, together; nothing else changes. -/
def Obligations.DigitalStepReportsExactlyTheEdges : Prop :=
  ∀ (s : State) (i : Byte), i.toNat < s.cfg.N →
    (s.dIn i ≠ s.dlastAt i → exec (.dstep i) s = .next { s with
      dlast := s.dlast.set i.toNat (s.dIn i)
      out := s.out ++ [buttonFrame i (s.dIn i)]
      stim := s.stim.tail, drawn := s.drawn + 1 }) ∧
    (s.dIn i = s.dlastAt i → exec (.dstep i) s = .next { s with
      stim := s.stim.tail, drawn := s.drawn + 1 })

/-- The two channel steps stop, by name, on a channel that does not exist (R18, R40: no run names one). The
stop is the model's choice, log entry 9. -/
def Obligations.StepsOfAbsentChannelsFault : Prop :=
  (∀ (s : State) (i : Byte), s.cfg.N ≤ i.toNat →
    exec (.dstep i) s = .fault (.noDigitalChannel i)) ∧
  ∀ (s : State) (j : Byte), s.cfg.M ≤ j.toNat →
    exec (.astep j) s = .fault (.noAnalogChannel j)

/-- Over `n` cycles of one channel the 'B' frames are those of the positions where the reading differs from
the one before it, `dlast[i]` standing before the first; `dlast[i]` ends as the last reading (R74, R72, an
inference of the spec). In particular a steady level is silent for ever. -/
def Obligations.ButtonFramesAreTheTransitions : Prop :=
  ∀ (n : Nat) (s : State) (i : Byte), s.wf → i.toNat < s.cfg.N →
    ∃ t, execTimes (.dstep i) n s = .next t ∧
      (n ≠ 0 → t.dlastAt i = (s.ahead (n - 1)).dIn i) ∧
      t.out = s.out ++ ((List.range n).filter fun k =>
          (s.ahead k).dIn i != (if k = 0 then s.dlastAt i else (s.ahead (k - 1)).dIn i)).map
        fun k => buttonFrame i ((s.ahead k).dIn i)

/-- The first cycle after reset, with the seed low: exactly the channels that read high emit a 'B' frame,
and that frame carries level 1. -/
def Obligations.FirstCycleReportsExactlyTheHighChannels : Prop :=
  ∀ (c : Config) (stim : List Instant) (k : Nat), c.wf → c.DSEED = false →
    ∃ t, exec .poll (State.resetIn c stim k) = .next t ∧
      ∀ (i : Byte) (f : Frame), i.toNat < c.N → f.command = 0x42 → f.index = i →
        (f ∈ t.out ↔ f = buttonFrame i true ∧ ((State.resetIn c stim k).ahead i.toNat).dIn i = true)

/-- WHAT THE HOST WAS LAST TOLD: every step from a legal state keeps it that `dlast[i]` is the level of the
channel's last 'B' frame since the reset, or the seed, and that those levels alternate from the seed
(R12, R75: inferences of the spec from R70 and R140). -/
def Obligations.StepKeepsLastReportedLevel : Prop :=
  ∀ s t : State, s.wf → s.tells → step s = .next t → t.tells

/-! ### The analog threshold comparator with decay counter -/

/-- `ASTEP j` on a channel that exists completes in every state, as the contract says: the exact distance
against `THRESHOLD`, strictly; the counter tested after the excursion is applied; the frame with the fresh
reading; the two writes and the frame together; nothing else changes. -/
def Obligations.AnalogStepFollowsTheContract : Prop :=
  ∀ (s : State) (j : Byte), j.toNat < s.cfg.M →
    let v := s.aIn j
    let moved := s.cfg.THRESHOLD < distance v.toNat (s.alastAt j).toNat
    let a1 := if moved then v else s.alastAt j
    let c1 := if moved then s.cfg.IDLE_TIMEOUT else s.decayAt j
    (1 < c1 → exec (.astep j) s = .next { s with
      alast := s.alast.set j.toNat a1
      decay := s.decay.set j.toNat (c1 - 1)
      out := s.out ++ [potFrame s.cfg.SPLIT j v.toNat]
      stim := s.stim.tail, drawn := s.drawn + 1 }) ∧
    (¬ 1 < c1 → exec (.astep j) s = .next { s with
      alast := s.alast.set j.toNat a1
      decay := s.decay.set j.toNat c1
      stim := s.stim.tail, drawn := s.drawn + 1 })

/-- Order inside the step: an excursion cycle emits when `IDLE_TIMEOUT > 1`, from whatever counter, and ends
with `decay[j] = IDLE_TIMEOUT - 1`; with `IDLE_TIMEOUT <= 1` it emits nothing and still writes both registers. -/
def Obligations.ExcursionCycleEmitsFromAnyCounter : Prop :=
  ∀ (s t : State) (j : Byte), s.wf → j.toNat < s.cfg.M →
    s.cfg.THRESHOLD < distance (s.aIn j).toNat (s.alastAt j).toNat →
    exec (.astep j) s = .next t →
    t.alastAt j = s.aIn j ∧
    (1 < s.cfg.IDLE_TIMEOUT → t.out = s.out ++ [potFrame s.cfg.SPLIT j (s.aIn j).toNat] ∧
      t.decayAt j = s.cfg.IDLE_TIMEOUT - 1) ∧
    (s.cfg.IDLE_TIMEOUT ≤ 1 → t.out = s.out ∧ t.decayAt j = s.cfg.IDLE_TIMEOUT)

/-- The value reported is the reading of this cycle, in the excursion cycle and in the tail. In an excursion
cycle it is the new `alast[j]`, otherwise it is within `THRESHOLD` of it. -/
def Obligations.ReportsCarryTheFreshReading : Prop :=
  ∀ (s t : State) (j : Byte), s.wf → exec (.astep j) s = .next t → t.out ≠ s.out →
    t.out = s.out ++ [potFrame s.cfg.SPLIT j (s.aIn j).toNat] ∧
    (s.cfg.THRESHOLD < distance (s.aIn j).toNat (s.alastAt j).toNat → t.alastAt j = s.aIn j) ∧
    (¬ s.cfg.THRESHOLD < distance (s.aIn j).toNat (s.alastAt j).toNat →
      t.alastAt j = s.alastAt j ∧
      distance (s.aIn j).toNat (t.alastAt j).toNat ≤ s.cfg.THRESHOLD)

/-- Re-arming: while every reading is an excursion from the one before it, every cycle emits and the counter
is back at `IDLE_TIMEOUT - 1`, for any number of cycles and from whatever counter; `alast[j]` follows. -/
def Obligations.SustainedMotionIsReportedEveryCycle : Prop :=
  ∀ (n : Nat) (s : State) (j : Byte), s.wf → j.toNat < s.cfg.M → 1 < s.cfg.IDLE_TIMEOUT →
    (∀ k, k < n → s.cfg.THRESHOLD < distance ((s.ahead k).aIn j).toNat
      (if k = 0 then s.alastAt j else (s.ahead (k - 1)).aIn j).toNat) →
    ∃ t, execTimes (.astep j) n s = .next t ∧
      t.out = s.out ++ (List.range n).map
        (fun k => potFrame s.cfg.SPLIT j ((s.ahead k).aIn j).toNat) ∧
      (n ≠ 0 → t.decayAt j = s.cfg.IDLE_TIMEOUT - 1 ∧ t.alastAt j = (s.ahead (n - 1)).aIn j)

/-- THE LENGTH OF A WINDOW (R85, an inference of the spec): an excursion now and `n` further cycles without
one emit in exactly the first `min (n + 1) (IDLE_TIMEOUT - 1)` cycles, each frame with its own cycle's
reading; the counter has come down by as many and stops at 1, not 0. -/
def Obligations.AWindowLastsIdleTimeoutLessOne : Prop :=
  ∀ (n : Nat) (s : State) (j : Byte), s.wf → j.toNat < s.cfg.M → 1 ≤ s.cfg.IDLE_TIMEOUT →
    s.cfg.THRESHOLD < distance (s.aIn j).toNat (s.alastAt j).toNat →
    (∀ k, 1 ≤ k → k ≤ n →
      distance ((s.ahead k).aIn j).toNat (s.aIn j).toNat ≤ s.cfg.THRESHOLD) →
    ∃ t, execTimes (.astep j) (n + 1) s = .next t ∧ t.alastAt j = s.aIn j ∧
      t.out = s.out ++ (List.range (min (n + 1) (s.cfg.IDLE_TIMEOUT - 1))).map
        (fun k => potFrame s.cfg.SPLIT j ((s.ahead k).aIn j).toNat) ∧
      t.decayAt j = s.cfg.IDLE_TIMEOUT - min (n + 1) (s.cfg.IDLE_TIMEOUT - 1)

/-- Silence: at a counter of 0 or 1, and while no reading is an excursion, `ASTEP j` changes nothing and
emits nothing, for any number of cycles (R87, an inference of the spec). -/
def Obligations.AtTheFloorAStillChannelIsSilent : Prop :=
  ∀ (n : Nat) (s : State) (j : Byte), j.toNat < s.cfg.M → s.decayAt j ≤ 1 →
    (∀ k, k < n →
      distance ((s.ahead k).aIn j).toNat (s.alastAt j).toNat ≤ s.cfg.THRESHOLD) →
    execTimes (.astep j) n s = .next (s.ahead n)

/-- The counter goes down by exactly 1, only in a cycle that emits, and never below 1 once it has been
loaded; the reference moves only on an excursion (R15, R86, R88: inferences of the spec). -/
def Obligations.CounterNeverFallsBelowOne : Prop :=
  ∀ (s t : State) (j : Byte), s.wf → exec (.astep j) s = .next t →
    (t.decayAt j < s.decayAt j → s.cfg.THRESHOLD < distance (s.aIn j).toNat (s.alastAt j).toNat ∨
      (t.decayAt j + 1 = s.decayAt j ∧ t.out ≠ s.out)) ∧
    (1 ≤ s.cfg.IDLE_TIMEOUT →
      (1 ≤ s.decayAt j ∨ s.cfg.THRESHOLD < distance (s.aIn j).toNat (s.alastAt j).toNat) →
      1 ≤ t.decayAt j) ∧
    (t.alastAt j ≠ s.alastAt j →
      s.cfg.THRESHOLD < distance (s.aIn j).toNat (s.alastAt j).toNat)

/-- Every step keeps it that an analog channel whose counter is 0 has the reference 0 (R13, R15). That a
`RESET` makes both 0 is decision D3 of the spec (log entry 10), and the statement rests on it. -/
def Obligations.StepKeepsZeroCountersUntouched : Prop :=
  ∀ s t : State, s.wf → 1 ≤ s.cfg.IDLE_TIMEOUT →
    (∀ j : Byte, j.toNat < s.cfg.M → s.decayAt j = 0 → s.alastAt j = 0) →
    step s = .next t → ∀ j : Byte, j.toNat < t.cfg.M → t.decayAt j = 0 → t.alastAt j = 0

/-- The first scan after reset reports an analog channel exactly when its reading is above `THRESHOLD` (R26,
an inference of the spec; the reset values are its decision D3). -/
def Obligations.FirstAnalogReadingIsComparedWithZero : Prop :=
  ∀ (c : Config) (stim : List Instant) (k : Nat) (j : Byte), c.wf → j.toNat < c.M →
    1 < c.IDLE_TIMEOUT →
    let v := (State.resetIn c stim k).aIn j
    ∃ t, exec (.astep j) (State.resetIn c stim k) = .next t ∧
      t.out = if c.THRESHOLD < v.toNat then [potFrame c.SPLIT j v.toNat] else []

/-! ### Channels are independent -/

/-- A channel step writes the state of its own channel only, and what it writes and emits depends on its
own channel's state and reading only: two blocks of one configuration that agree on that channel and its
reading agree on the result, whatever the other channels hold. -/
def Obligations.ChannelsAreIndependent : Prop :=
  (∀ (s t : State) (i : Byte), exec (.dstep i) s = .next t →
    (∀ k, k ≠ i → t.dlastAt k = s.dlastAt k) ∧ t.alast = s.alast ∧ t.decay = s.decay) ∧
  (∀ (s t : State) (j : Byte), exec (.astep j) s = .next t →
    t.dlast = s.dlast ∧ ∀ k, k ≠ j → t.alastAt k = s.alastAt k ∧ t.decayAt k = s.decayAt k) ∧
  (∀ (s s' t t' : State) (i : Byte), s.wf → s'.wf → s.cfg = s'.cfg →
    s.dlastAt i = s'.dlastAt i → s.dIn i = s'.dIn i →
    exec (.dstep i) s = .next t → exec (.dstep i) s' = .next t' →
    t.dlastAt i = t'.dlastAt i ∧ t.out.drop s.out.length = t'.out.drop s'.out.length) ∧
  (∀ (s s' t t' : State) (j : Byte), s.wf → s'.wf → s.cfg = s'.cfg →
    s.alastAt j = s'.alastAt j → s.decayAt j = s'.decayAt j → s.aIn j = s'.aIn j →
    exec (.astep j) s = .next t → exec (.astep j) s' = .next t' →
    t.alastAt j = t'.alastAt j ∧ t.decayAt j = t'.decayAt j ∧
      t.out.drop s.out.length = t'.out.drop s'.out.length)

/-! ### The encoder and the stream -/

/-- `FRAME` completes in every state for every combination of four bytes: it appends the frame
`[c, i, d1, d2, (c + i + d1 + d2) mod 256]` and changes nothing else. -/
def Obligations.FrameAppendsTheSummedFrame : Prop :=
  ∀ (s : State) (c i d1 d2 : Byte), exec (.frame c i d1 d2) s = .next { s with
    out := s.out ++ [⟨c, i, d1, d2,
      BitVec.ofNat 8 ((c.toNat + i.toNat + d1.toNat + d2.toNat) % 256)⟩] }

/-- The frame kinds as instructions: a 'B' frame and a 'P' frame are handed to the transport with the fields
of R53 to R56, and nothing else changes. (That to execute a frame row is to emit it is the model's reading,
log entry 4, and that this holds for an index that names no channel and a reading of more than `W` bits is its
choice, log entry 21; the bit positions of the split are decision D4.) -/
def Obligations.FrameRowsAreHandedOver : Prop :=
  (∀ (s : State) (i : Byte) (x : Bool), exec (.frameB i x) s = .next { s with
    out := s.out ++ [buttonFrame i x] }) ∧
  ∀ (s : State) (j : Byte) (v : Reading), exec (.frameP j v) s = .next { s with
    out := s.out ++ [potFrame s.cfg.SPLIT j v.toNat] }

/-- The checksum may be computed in any order of the bytes: keeping the low 8 bits of the wide sum, or
adding byte by byte with the carries dropped. -/
def Obligations.ChecksumMayBeAddedInAnyOrder : Prop :=
  ∀ c i d1 d2 : Byte,
    checksum c i d1 d2 = c + i + d1 + d2 ∧ checksum c i d1 d2 = ((d2 + d1) + i) + c ∧
    (checksum c i d1 d2).toNat = (c.toNat + i.toNat + d1.toNat + d2.toNat) % 256 ∧
    (∀ a b e f : Byte, [a, b, e, f].Perm [c, i, d1, d2] → checksum a b e f = checksum c i d1 d2)

/-- A change of any single one of the five bytes of a frame breaks the checksum equation (R101, an inference
of the spec). -/
def Obligations.OneChangedByteIsDetected : Prop :=
  ∀ (f : Frame) (b : Byte), f.sums →
    (({ f with command := b } : Frame).sums → b = f.command) ∧
    (({ f with index := b } : Frame).sums → b = f.index) ∧
    (({ f with data1 := b } : Frame).sums → b = f.data1) ∧
    (({ f with data2 := b } : Frame).sums → b = f.data2) ∧
    (({ f with checksum := b } : Frame).sums → b = f.checksum)

/-- EVERY FRAME IS ONE THE BLOCK PRODUCES: every step from a legal state keeps it that all frames handed over
have a right checksum, a known command, an index in range and data bytes of a level or of a `W`-bit reading
(R60, R98, R101: inferences of the spec). -/
def Obligations.StepKeepsFramesProducible : Prop :=
  ∀ s t : State, s.wf → (∀ f ∈ s.sent, f.producible s.cfg) → step s = .next t →
    ∀ f ∈ t.sent, f.producible t.cfg

/-- The checksum equation alone holds of every frame, after every instruction and every step, without a
premise on the state's registers (R59, R101: "always"). -/
def Obligations.EveryInstructionKeepsChecksumsRight : Prop :=
  (∀ (i : Instr) (s t : State), (∀ f ∈ s.sent, f.sums) → exec i s = .next t → ∀ f ∈ t.sent, f.sums) ∧
    ∀ s t : State, (∀ f ∈ s.sent, f.sums) → step s = .next t → ∀ f ∈ t.sent, f.sums

/-- A step hands over at most one frame, and takes none back (R90, R74, R99, R141). -/
def Obligations.AStepHandsOverAtMostOneFrame : Prop :=
  ∀ s t : State, step s = .next t → t.sent = s.sent ∨ ∃ f, t.sent = s.sent ++ [f]

/-- The stream is the five bytes of each frame, in the order of R35 and R50, with nothing before, between or
after them; so a receiver that starts at a frame boundary recovers the frames (R37, R61, R100). -/
def Obligations.TheStreamHoldsTheFramesAndNothingElse : Prop :=
  (∀ s : State, s.stream.length = 5 * s.sent.length) ∧
  (∀ s : State, framesIn s.stream = some s.sent) ∧
  ∀ (s : State) (f : Frame), (s.emit f).stream =
    s.stream ++ [f.command, f.index, f.data1, f.data2, f.checksum]

/-! ### Encoding -/

/-- DECODE AFTER ENCODE: every instruction that has an encoding decodes back to itself, with every operand
at every value, under either split, wherever it stands at the front of a stream; exactly the two frame
kinds have an encoding (R53, R56, R58, R64). -/
def Obligations.DecodeOfEncodeIsTheInstruction : Prop :=
  (∀ (sp : Split) (i : Instr) (bs rest : List Byte), encode sp i = some bs →
    decode sp (bs ++ rest) = .ok (i, rest)) ∧
  ∀ (sp : Split) (i : Instr), (encode sp i).isSome = true ↔
    (∃ k x, i = .frameB k x) ∨ ∃ k v, i = .frameP k v

/-- ENCODE AFTER DECODE: what the decoder accepts are exactly the words the encoder writes; no bit is dropped
and no value outside R60 is accepted (U9 to U11). -/
def Obligations.DecodeAcceptsOnlyEncodedWords : Prop :=
  ∀ (sp : Split) (bs rest : List Byte) (i : Instr), decode sp bs = .ok (i, rest) →
    ∃ w, encode sp i = some w ∧ bs = w ++ rest

/-- The decoder refuses by name what the block never produces (R60, U9, U10, U11). -/
def Obligations.DecodeRefusesByName : Prop :=
  (∀ (sp : Split) (c i d1 d2 ck : Byte), c ≠ 0x42 → c ≠ 0x50 →
    decode sp [c, i, d1, d2, ck] = .error .unknownCommand) ∧
  (∀ (sp : Split) (i d1 d2 ck : Byte), 1 < d1.toNat →
    decode sp [0x42, i, d1, d2, ck] = .error .levelBits) ∧
  (∀ (sp : Split) (i d1 d2 ck : Byte), d1.toNat ≤ 1 → d2 ≠ 0 →
    decode sp [0x42, i, d1, d2, ck] = .error .unusedByte) ∧
  (∀ (i d1 d2 ck : Byte), 0x0F < d1.toNat →
    decode .nibble [0x50, i, d1, d2, ck] = .error .splitBits) ∧
  (∀ (i d1 ck : Byte), d1.toNat ≤ 1 → ck ≠ 0x42 + i + d1 →
    decode .nibble [0x42, i, d1, 0, ck] = .error .badChecksum) ∧
  (∀ (i d1 d2 ck : Byte), d1.toNat ≤ 0x0F → ck ≠ 0x50 + i + d1 + d2 →
    decode .nibble [0x50, i, d1, d2, ck] = .error .badChecksum) ∧
  ∀ (sp : Split) (bs : List Byte), bs.length < 5 → decode sp bs = .error .truncated

/-- The split loses nothing, for every 12-bit reading: the two bytes carry the reading, low nibble first
under `NIBBLE`, low byte first under `LE16` (R58, an inference of the spec; R57, D4, D18). -/
def Obligations.SplitLosesNothing : Prop :=
  ∀ v : Reading,
    (split .nibble v).1.toNat + 16 * (split .nibble v).2.toNat = v.toNat ∧
    (split .nibble v).1.toNat ≤ 0x0F ∧
    (split .le16 v).1.toNat + 256 * (split .le16 v).2.toNat = v.toNat

/-- Words written out from the spec's bit patterns decode to what they stand for (R53, R56, S1, 2.1, 2.4). -/
def Obligations.WordsOfTheSpecDecode : Prop :=
  decodeTableWord 40 0x4200010043 = some (.frameB 0 true) ∧
  decodeTableWord 40 0x4200000042 = some (.frameB 0 false) ∧
  decodeTableWord 40 0x42FF010042 = some (.frameB 255 true) ∧
  decodeTableWord 40 0x5002020357 = some (.frameP 2 50) ∧
  decodeTableWord 40 0x50FF0FFF5D = some (.frameP 255 4095) ∧
  decodeTableWord 40 0x5002000153 = some (.frameP 2 16)

/-- Where a table word stands: a machine poised by `withFetchWord` for a frame word produces, by its very
next step, exactly that frame. The word is read under `NIBBLE`; a block with another `SPLIT` produces its own
frame of the same reading. (The block fetches nothing, R46; the placing is the model's, log entry 8.) -/
def Obligations.APoisedMachineProducesTheWordNext : Prop :=
  (∀ (s : State) (w : Nat) (i : Byte) (x : Bool), s.wf →
    decodeTableWord 40 w = some (.frameB i x) → i.toNat < s.cfg.N →
    ∃ t, step (s.withFetchWord 40 w) = .next t ∧ t.sent = s.sent ++ [buttonFrame i x] ∧
      t.dlastAt i = x) ∧
  ∀ (s : State) (w : Nat) (j : Byte) (v : Reading), s.wf →
    decodeTableWord 40 w = some (.frameP j v) → j.toNat < s.cfg.M → v.toNat < 2 ^ s.cfg.W →
    ∃ t, step (s.withFetchWord 40 w) = .next t ∧
      t.sent = s.sent ++ [potFrame s.cfg.SPLIT j v.toNat] ∧ t.alastAt j = v
end

