-- ==== Sys2Proof/Laws/State.lean ====
section
/-! SUPPORT. One lemma per field per update of the state, and what the reads of the environment depend on. -/

namespace Sys2Proof.Machine

/-! ### `State.setDlast` -/

@[simp] theorem State.setDlast_cfg (s : State) (i : Byte) (x : Bool) : (s.setDlast i x).cfg = s.cfg := rfl
@[simp] theorem State.setDlast_dlast (s : State) (i : Byte) (x : Bool) : (s.setDlast i x).dlast = s.dlast.set i.toNat x := rfl
@[simp] theorem State.setDlast_alast (s : State) (i : Byte) (x : Bool) : (s.setDlast i x).alast = s.alast := rfl
@[simp] theorem State.setDlast_decay (s : State) (i : Byte) (x : Bool) : (s.setDlast i x).decay = s.decay := rfl
@[simp] theorem State.setDlast_seq (s : State) (i : Byte) (x : Bool) : (s.setDlast i x).seq = s.seq := rfl
@[simp] theorem State.setDlast_timer (s : State) (i : Byte) (x : Bool) : (s.setDlast i x).timer = s.timer := rfl
@[simp] theorem State.setDlast_out (s : State) (i : Byte) (x : Bool) : (s.setDlast i x).out = s.out := rfl
@[simp] theorem State.setDlast_past (s : State) (i : Byte) (x : Bool) : (s.setDlast i x).past = s.past := rfl
@[simp] theorem State.setDlast_stim (s : State) (i : Byte) (x : Bool) : (s.setDlast i x).stim = s.stim := rfl
@[simp] theorem State.setDlast_drawn (s : State) (i : Byte) (x : Bool) : (s.setDlast i x).drawn = s.drawn := rfl

/-! ### `State.setAlast` -/

@[simp] theorem State.setAlast_cfg (s : State) (j : Byte) (v : Reading) : (s.setAlast j v).cfg = s.cfg := rfl
@[simp] theorem State.setAlast_dlast (s : State) (j : Byte) (v : Reading) : (s.setAlast j v).dlast = s.dlast := rfl
@[simp] theorem State.setAlast_alast (s : State) (j : Byte) (v : Reading) : (s.setAlast j v).alast = s.alast.set j.toNat v := rfl
@[simp] theorem State.setAlast_decay (s : State) (j : Byte) (v : Reading) : (s.setAlast j v).decay = s.decay := rfl
@[simp] theorem State.setAlast_seq (s : State) (j : Byte) (v : Reading) : (s.setAlast j v).seq = s.seq := rfl
@[simp] theorem State.setAlast_timer (s : State) (j : Byte) (v : Reading) : (s.setAlast j v).timer = s.timer := rfl
@[simp] theorem State.setAlast_out (s : State) (j : Byte) (v : Reading) : (s.setAlast j v).out = s.out := rfl
@[simp] theorem State.setAlast_past (s : State) (j : Byte) (v : Reading) : (s.setAlast j v).past = s.past := rfl
@[simp] theorem State.setAlast_stim (s : State) (j : Byte) (v : Reading) : (s.setAlast j v).stim = s.stim := rfl
@[simp] theorem State.setAlast_drawn (s : State) (j : Byte) (v : Reading) : (s.setAlast j v).drawn = s.drawn := rfl

/-! ### `State.setDecay` -/

@[simp] theorem State.setDecay_cfg (s : State) (j : Byte) (n : Nat) : (s.setDecay j n).cfg = s.cfg := rfl
@[simp] theorem State.setDecay_dlast (s : State) (j : Byte) (n : Nat) : (s.setDecay j n).dlast = s.dlast := rfl
@[simp] theorem State.setDecay_alast (s : State) (j : Byte) (n : Nat) : (s.setDecay j n).alast = s.alast := rfl
@[simp] theorem State.setDecay_decay (s : State) (j : Byte) (n : Nat) : (s.setDecay j n).decay = s.decay.set j.toNat n := rfl
@[simp] theorem State.setDecay_seq (s : State) (j : Byte) (n : Nat) : (s.setDecay j n).seq = s.seq := rfl
@[simp] theorem State.setDecay_timer (s : State) (j : Byte) (n : Nat) : (s.setDecay j n).timer = s.timer := rfl
@[simp] theorem State.setDecay_out (s : State) (j : Byte) (n : Nat) : (s.setDecay j n).out = s.out := rfl
@[simp] theorem State.setDecay_past (s : State) (j : Byte) (n : Nat) : (s.setDecay j n).past = s.past := rfl
@[simp] theorem State.setDecay_stim (s : State) (j : Byte) (n : Nat) : (s.setDecay j n).stim = s.stim := rfl
@[simp] theorem State.setDecay_drawn (s : State) (j : Byte) (n : Nat) : (s.setDecay j n).drawn = s.drawn := rfl

/-! ### `State.emit` -/

@[simp] theorem State.emit_cfg (s : State) (f : Frame) : (s.emit f).cfg = s.cfg := rfl
@[simp] theorem State.emit_dlast (s : State) (f : Frame) : (s.emit f).dlast = s.dlast := rfl
@[simp] theorem State.emit_alast (s : State) (f : Frame) : (s.emit f).alast = s.alast := rfl
@[simp] theorem State.emit_decay (s : State) (f : Frame) : (s.emit f).decay = s.decay := rfl
@[simp] theorem State.emit_seq (s : State) (f : Frame) : (s.emit f).seq = s.seq := rfl
@[simp] theorem State.emit_timer (s : State) (f : Frame) : (s.emit f).timer = s.timer := rfl
@[simp] theorem State.emit_out (s : State) (f : Frame) : (s.emit f).out = s.out ++ [f] := rfl
@[simp] theorem State.emit_past (s : State) (f : Frame) : (s.emit f).past = s.past := rfl
@[simp] theorem State.emit_stim (s : State) (f : Frame) : (s.emit f).stim = s.stim := rfl
@[simp] theorem State.emit_drawn (s : State) (f : Frame) : (s.emit f).drawn = s.drawn := rfl

/-! ### `State.emitFrame` -/

@[simp] theorem State.emitFrame_cfg (s : State) (c i d1 d2 : Byte) : (s.emitFrame c i d1 d2).cfg = s.cfg := rfl
@[simp] theorem State.emitFrame_dlast (s : State) (c i d1 d2 : Byte) : (s.emitFrame c i d1 d2).dlast = s.dlast := rfl
@[simp] theorem State.emitFrame_alast (s : State) (c i d1 d2 : Byte) : (s.emitFrame c i d1 d2).alast = s.alast := rfl
@[simp] theorem State.emitFrame_decay (s : State) (c i d1 d2 : Byte) : (s.emitFrame c i d1 d2).decay = s.decay := rfl
@[simp] theorem State.emitFrame_seq (s : State) (c i d1 d2 : Byte) : (s.emitFrame c i d1 d2).seq = s.seq := rfl
@[simp] theorem State.emitFrame_timer (s : State) (c i d1 d2 : Byte) : (s.emitFrame c i d1 d2).timer = s.timer := rfl
@[simp] theorem State.emitFrame_out (s : State) (c i d1 d2 : Byte) : (s.emitFrame c i d1 d2).out = s.out ++ [mkFrame c i d1 d2] := rfl
@[simp] theorem State.emitFrame_past (s : State) (c i d1 d2 : Byte) : (s.emitFrame c i d1 d2).past = s.past := rfl
@[simp] theorem State.emitFrame_stim (s : State) (c i d1 d2 : Byte) : (s.emitFrame c i d1 d2).stim = s.stim := rfl
@[simp] theorem State.emitFrame_drawn (s : State) (c i d1 d2 : Byte) : (s.emitFrame c i d1 d2).drawn = s.drawn := rfl

/-! ### `State.report` -/

@[simp] theorem State.report_cfg (s : State) (j : Byte) (v : Reading) : (s.report j v).cfg = s.cfg := rfl
@[simp] theorem State.report_dlast (s : State) (j : Byte) (v : Reading) : (s.report j v).dlast = s.dlast := rfl
@[simp] theorem State.report_alast (s : State) (j : Byte) (v : Reading) : (s.report j v).alast = s.alast := rfl
@[simp] theorem State.report_decay (s : State) (j : Byte) (v : Reading) : (s.report j v).decay = s.decay := rfl
@[simp] theorem State.report_seq (s : State) (j : Byte) (v : Reading) : (s.report j v).seq = s.seq := rfl
@[simp] theorem State.report_timer (s : State) (j : Byte) (v : Reading) : (s.report j v).timer = s.timer := rfl
@[simp] theorem State.report_out (s : State) (j : Byte) (v : Reading) : (s.report j v).out = s.out ++ [mkFrame cmdP j (split s.cfg.SPLIT v).1 (split s.cfg.SPLIT v).2] := rfl
@[simp] theorem State.report_past (s : State) (j : Byte) (v : Reading) : (s.report j v).past = s.past := rfl
@[simp] theorem State.report_stim (s : State) (j : Byte) (v : Reading) : (s.report j v).stim = s.stim := rfl
@[simp] theorem State.report_drawn (s : State) (j : Byte) (v : Reading) : (s.report j v).drawn = s.drawn := rfl

/-! ### `State.nextInstant` -/

@[simp] theorem State.nextInstant_cfg (s : State) : (s.nextInstant).cfg = s.cfg := rfl
@[simp] theorem State.nextInstant_dlast (s : State) : (s.nextInstant).dlast = s.dlast := rfl
@[simp] theorem State.nextInstant_alast (s : State) : (s.nextInstant).alast = s.alast := rfl
@[simp] theorem State.nextInstant_decay (s : State) : (s.nextInstant).decay = s.decay := rfl
@[simp] theorem State.nextInstant_seq (s : State) : (s.nextInstant).seq = s.seq := rfl
@[simp] theorem State.nextInstant_timer (s : State) : (s.nextInstant).timer = s.timer := rfl
@[simp] theorem State.nextInstant_out (s : State) : (s.nextInstant).out = s.out := rfl
@[simp] theorem State.nextInstant_past (s : State) : (s.nextInstant).past = s.past := rfl
@[simp] theorem State.nextInstant_stim (s : State) : (s.nextInstant).stim = s.stim.tail := rfl
@[simp] theorem State.nextInstant_drawn (s : State) : (s.nextInstant).drawn = s.drawn + 1 := rfl

/-! ### `State.moveTo` -/

@[simp] theorem State.moveTo_cfg (s : State) (q : Seq) : (s.moveTo q).cfg = s.cfg := rfl
@[simp] theorem State.moveTo_dlast (s : State) (q : Seq) : (s.moveTo q).dlast = s.dlast := rfl
@[simp] theorem State.moveTo_alast (s : State) (q : Seq) : (s.moveTo q).alast = s.alast := rfl
@[simp] theorem State.moveTo_decay (s : State) (q : Seq) : (s.moveTo q).decay = s.decay := rfl
@[simp] theorem State.moveTo_seq (s : State) (q : Seq) : (s.moveTo q).seq = q := rfl
@[simp] theorem State.moveTo_timer (s : State) (q : Seq) : (s.moveTo q).timer = 0 := rfl
@[simp] theorem State.moveTo_out (s : State) (q : Seq) : (s.moveTo q).out = s.out := rfl
@[simp] theorem State.moveTo_past (s : State) (q : Seq) : (s.moveTo q).past = s.past := rfl
@[simp] theorem State.moveTo_stim (s : State) (q : Seq) : (s.moveTo q).stim = s.stim := rfl
@[simp] theorem State.moveTo_drawn (s : State) (q : Seq) : (s.moveTo q).drawn = s.drawn := rfl

/-! ### `State.ahead` -/

@[simp] theorem State.ahead_cfg (s : State) (k : Nat) : (s.ahead k).cfg = s.cfg := rfl
@[simp] theorem State.ahead_dlast (s : State) (k : Nat) : (s.ahead k).dlast = s.dlast := rfl
@[simp] theorem State.ahead_alast (s : State) (k : Nat) : (s.ahead k).alast = s.alast := rfl
@[simp] theorem State.ahead_decay (s : State) (k : Nat) : (s.ahead k).decay = s.decay := rfl
@[simp] theorem State.ahead_seq (s : State) (k : Nat) : (s.ahead k).seq = s.seq := rfl
@[simp] theorem State.ahead_timer (s : State) (k : Nat) : (s.ahead k).timer = s.timer := rfl
@[simp] theorem State.ahead_out (s : State) (k : Nat) : (s.ahead k).out = s.out := rfl
@[simp] theorem State.ahead_past (s : State) (k : Nat) : (s.ahead k).past = s.past := rfl
@[simp] theorem State.ahead_stim (s : State) (k : Nat) : (s.ahead k).stim = s.stim.drop k := rfl
@[simp] theorem State.ahead_drawn (s : State) (k : Nat) : (s.ahead k).drawn = s.drawn + k := rfl

/-! ### Reads of the environment depend on `stim`, `drawn` and `W` only -/

@[simp] theorem State.dIn_setDlast (s : State) (i : Byte) (x : Bool) (k : Byte) : (s.setDlast i x).dIn k = s.dIn k := rfl
@[simp] theorem State.aIn_setDlast (s : State) (i : Byte) (x : Bool) (k : Byte) : (s.setDlast i x).aIn k = s.aIn k := rfl
@[simp] theorem State.dIn_setAlast (s : State) (j : Byte) (v : Reading) (k : Byte) : (s.setAlast j v).dIn k = s.dIn k := rfl
@[simp] theorem State.aIn_setAlast (s : State) (j : Byte) (v : Reading) (k : Byte) : (s.setAlast j v).aIn k = s.aIn k := rfl
@[simp] theorem State.dIn_setDecay (s : State) (j : Byte) (n : Nat) (k : Byte) : (s.setDecay j n).dIn k = s.dIn k := rfl
@[simp] theorem State.aIn_setDecay (s : State) (j : Byte) (n : Nat) (k : Byte) : (s.setDecay j n).aIn k = s.aIn k := rfl
@[simp] theorem State.dIn_emit (s : State) (f : Frame) (k : Byte) : (s.emit f).dIn k = s.dIn k := rfl
@[simp] theorem State.aIn_emit (s : State) (f : Frame) (k : Byte) : (s.emit f).aIn k = s.aIn k := rfl
@[simp] theorem State.dIn_emitFrame (s : State) (c i d1 d2 : Byte) (k : Byte) : (s.emitFrame c i d1 d2).dIn k = s.dIn k := rfl
@[simp] theorem State.aIn_emitFrame (s : State) (c i d1 d2 : Byte) (k : Byte) : (s.emitFrame c i d1 d2).aIn k = s.aIn k := rfl
@[simp] theorem State.dIn_report (s : State) (j : Byte) (v : Reading) (k : Byte) : (s.report j v).dIn k = s.dIn k := rfl
@[simp] theorem State.aIn_report (s : State) (j : Byte) (v : Reading) (k : Byte) : (s.report j v).aIn k = s.aIn k := rfl
@[simp] theorem State.dIn_moveTo (s : State) (q : Seq) (k : Byte) : (s.moveTo q).dIn k = s.dIn k := rfl
@[simp] theorem State.aIn_moveTo (s : State) (q : Seq) (k : Byte) : (s.moveTo q).aIn k = s.aIn k := rfl

/-- Moving on by no instant changes nothing. -/
@[simp] theorem State.ahead_zero (s : State) : s.ahead 0 = s := rfl

/-- One instant used up is the environment one instant ahead. -/
theorem State.nextInstant_eq_ahead (s : State) : s.nextInstant = s.ahead 1 := by
  simp [State.nextInstant, State.ahead, List.drop_one]

/-- Moving on twice is moving on by the sum. -/
@[simp] theorem State.ahead_ahead (s : State) (a b : Nat) : (s.ahead a).ahead b = s.ahead (a + b) := by
  simp [State.ahead, List.drop_drop, Nat.add_assoc]

/-- What a state reads depends on its stimulus, its instant and the width of a reading. -/
theorem State.aIn_congr {s t : State} (hc : s.cfg = t.cfg) (hs : s.stim = t.stim)
    (hd : s.drawn = t.drawn) (j : Byte) : s.aIn j = t.aIn j := by
  simp [State.aIn, hc, hs, hd]

/-- What a state reads on a digital input depends on its stimulus and its instant. -/
theorem State.dIn_congr {s t : State} (hs : s.stim = t.stim) (hd : s.drawn = t.drawn) (i : Byte) :
    s.dIn i = t.dIn i := by
  simp [State.dIn, hs, hd]

/-- A reading has `W` bits (R32). -/
theorem State.aIn_lt (s : State) (j : Byte) : (s.aIn j).toNat < 2 ^ s.cfg.W := by
  simp only [State.aIn, narrow, BitVec.toNat_ofNat]
  exact lt_of_le_of_lt (Nat.mod_le _ _) (Nat.mod_lt _ (Nat.two_pow_pos _))

end Sys2Proof.Machine
end

