-- ==== Sys2Proof/Laws/Arrays.lean ====
section
/-! SUPPORT. Reading after writing, for the three register arrays (R8, R16). -/

namespace Sys2Proof.Machine

/-- Two channel indices are the same element only if they are the same index. -/
theorem index_ne {i k : Byte} (h : k ≠ i) : i.toNat ≠ k.toNat := fun e => h (BitVec.eq_of_toNat_eq e.symm)

/-- A write reaches its own element. -/
theorem getD_set_self {α : Type} (l : List α) (n : Nat) (a d : α) (h : n < l.length) :
    (l.set n a).getD n d = a := by
  simp [List.getD_eq_getElem?_getD, h]

/-- A write leaves every other element alone. -/
theorem getD_set_ne {α : Type} (l : List α) (n m : Nat) (a d : α) (h : n ≠ m) :
    (l.set n a).getD m d = l.getD m d := by
  simp [List.getD_eq_getElem?_getD, List.getElem?_set_ne h]

/-- Writing back what an element holds changes nothing. -/
theorem set_getD_self {α : Type} (l : List α) (n : Nat) (d : α) : l.set n (l.getD n d) = l := by
  apply List.ext_getElem?
  intro m
  by_cases h : n = m
  · subst h
    by_cases hn : n < l.length <;> simp [List.getD_eq_getElem?_getD, hn]
  · simp [List.getElem?_set_ne h]

theorem State.dlastAt_setDlast_self {s : State} {i : Byte} (x : Bool) (h : i.toNat < s.dlast.length) :
    (s.setDlast i x).dlastAt i = x := getD_set_self _ _ _ _ h

theorem State.dlastAt_setDlast_ne (s : State) {i k : Byte} (x : Bool) (h : k ≠ i) :
    (s.setDlast i x).dlastAt k = s.dlastAt k := getD_set_ne _ _ _ _ _ (index_ne h)

theorem State.alastAt_setAlast_self {s : State} {j : Byte} (v : Reading) (h : j.toNat < s.alast.length) :
    (s.setAlast j v).alastAt j = v := getD_set_self _ _ _ _ h

theorem State.alastAt_setAlast_ne (s : State) {j k : Byte} (v : Reading) (h : k ≠ j) :
    (s.setAlast j v).alastAt k = s.alastAt k := getD_set_ne _ _ _ _ _ (index_ne h)

theorem State.decayAt_setDecay_self {s : State} {j : Byte} (n : Nat) (h : j.toNat < s.decay.length) :
    (s.setDecay j n).decayAt j = n := getD_set_self _ _ _ _ h

theorem State.decayAt_setDecay_ne (s : State) {j k : Byte} (n : Nat) (h : k ≠ j) :
    (s.setDecay j n).decayAt k = s.decayAt k := getD_set_ne _ _ _ _ _ (index_ne h)

/-- A register of a legal state that exists holds at most `IDLE_TIMEOUT`. -/
theorem State.decayAt_le {s : State} (h : s.wf) (j : Byte) : s.decayAt j ≤ s.cfg.IDLE_TIMEOUT := by
  obtain ⟨-, -, -, -, -, hd, -⟩ := h
  unfold State.decayAt
  by_cases hj : j.toNat < s.decay.length
  · rw [List.getD_eq_getElem _ _ hj]; exact hd _ (List.getElem_mem hj)
  · simp [List.getD_eq_getElem?_getD, Nat.not_lt.mp hj]

/-- A reference of a legal state has `W` bits. -/
theorem State.alastAt_lt {s : State} (h : s.wf) (j : Byte) : (s.alastAt j).toNat < 2 ^ s.cfg.W := by
  obtain ⟨-, -, -, -, ha, -⟩ := h
  unfold State.alastAt
  by_cases hj : j.toNat < s.alast.length
  · rw [List.getD_eq_getElem _ _ hj]; simpa using List.all_eq_true.mp ha _ (List.getElem_mem hj)
  · simp [List.getD_eq_getElem?_getD, Nat.not_lt.mp hj]

end Sys2Proof.Machine
end

