-- ==== Sys2Proof/Laws/Fairness.lean ====
section
/-! SUPPORT. The free `tick` is under the weak fairness of D11, and under no other law (log entry 20). -/

namespace Sys2Proof

/-- Counting down takes the countdown to its `tick`. -/
theorem countdown_add {gap : Nat → Nat} {k : Nat} : ∀ {w n : Nat}, countdown gap n = (w, k) →
    countdown gap (n + w) = (0, k)
  | 0, _, h => h
  | w + 1, n, h => by
    rw [show n + (w + 1) = n + 1 + w by omega]
    exact countdown_add (by rw [countdown, h])

/-- THE LAW: whatever the gaps are, `tick`s recur for ever. -/
theorem ticks_recur (gap : Nat → Nat) (n : Nat) : ∃ m, n ≤ m ∧ ticks gap m = true :=
  ⟨n + (countdown gap n).1, Nat.le_add_right _ _, by simp [ticks, countdown_add (n := n) rfl]⟩

/-- NO OTHER LAW: every sequence of events that recurs for ever is the `tick`s of some gaps. -/
theorem recurring_events_are_ticks (f : Nat → Bool) (h : ∀ n, ∃ m, n ≤ m ∧ f m = true) :
    ∃ gap, ∀ n, ticks gap n = f n := by
  have hd : ∀ n, ∃ d, f (n + d) = true := fun n => by
    obtain ⟨m, hm, hf⟩ := h n
    exact ⟨m - n, by rwa [Nat.add_sub_cancel' hm]⟩
  -- `left n` is the distance to the next event, `start k` the instant after the `k`-th one
  let left n := Nat.find (hd n)
  have hleft : ∀ n, left n = if f n then 0 else left (n + 1) + 1 := fun n => by
    split
    · exact (Nat.find_eq_zero _).2 (by simpa)
    · refine (Nat.find_eq_iff _).2 ⟨?_, fun m hm hf => ?_⟩
      · have := Nat.find_spec (hd (n + 1))
        rwa [Nat.add_assoc, Nat.add_comm 1] at this
      · cases m with
        | zero => simp_all
        | succ m =>
          exact Nat.find_min (hd (n + 1)) (m := m) (show m < left (n + 1) by omega)
            (by rwa [Nat.add_assoc, Nat.add_comm 1])
  let start : Nat → Nat := fun k => Nat.rec 0 (fun _ n => n + left n + 1) k
  have key : ∀ n, ∃ k, countdown (fun k => left (start k)) n = (left n, k) ∧ n + left n + 1 = start (k + 1) := by
    intro n
    induction n with
    | zero => exact ⟨0, rfl, rfl⟩
    | succ n ih =>
      obtain ⟨k, hc, hs⟩ := ih
      have hn := hleft n
      split at hn
      · rw [hn] at hc hs
        have hs : n + 1 = start (k + 1) := hs
        refine ⟨k + 1, ?_, show n + 1 + left (n + 1) + 1 = start (k + 1) + left (start (k + 1)) + 1 by rw [← hs]⟩
        rw [countdown, hc, hs]
      · rw [hn] at hc hs
        exact ⟨k, by rw [countdown, hc], by omega⟩
  refine ⟨fun k => left (start k), fun n => ?_⟩
  obtain ⟨k, hc, -⟩ := key n
  rw [ticks, hc, hleft n]
  cases f n <;> rfl

namespace Machine

/-- Past every written stimulus the environment presents a `tick` again and again. -/
theorem State.tickNow_recurs (s : State) (n : Nat) :
    ∃ m, n ≤ m ∧ ∀ t : State, t.stim = s.stim.drop m → t.drawn = s.drawn + m → t.tickNow = true := by
  obtain ⟨m, hm, hf⟩ := ticks_recur Config.freeGap (s.drawn + s.stim.length + n)
  refine ⟨m - s.drawn, by omega, fun t hs hd => ?_⟩
  rw [State.tickNow, hs, hd, List.drop_eq_nil_of_le (by omega), Nat.add_sub_cancel' (by omega)]
  exact hf

end Machine

end Sys2Proof
end

