-- ==== Sys2Proof/Laws/Frames.lean ====
section
/-! SUPPORT. What the model's frames are, in the terms of `Safety.lean` (R53, R56, R59, R96). -/

namespace Sys2Proof

/-- Reduction modulo 256 commutes with addition (R96). -/
theorem checksum_eq_sum (c i d1 d2 : Byte) : checksum c i d1 d2 = c + i + d1 + d2 := by
  apply BitVec.eq_of_toNat_eq
  simp only [checksum, BitVec.toNat_ofNat, BitVec.toNat_add]
  omega

/-- The model's frame is the frame of the wrapped sum. -/
theorem mkFrame_eq_summed (c i d1 d2 : Byte) : mkFrame c i d1 d2 = summed c i d1 d2 := by
  simp [mkFrame, summed, checksum_eq_sum]

/-- Every frame that is built satisfies the checksum equation (R101). -/
theorem mkFrame_sums (c i d1 d2 : Byte) : (mkFrame c i d1 d2).sums := by
  simp only [Frame.sums, mkFrame, checksum, BitVec.toNat_ofNat]
  omega

/-- The frame of an edge is the 'B' frame (R53). -/
theorem mkFrame_button (i : Byte) (x : Bool) : mkFrame cmdB i (levelByte x) 0 = buttonFrame i x := by
  rw [mkFrame_eq_summed]
  cases x <;> rfl

/-- The low nibble and the byte above it, as remainder and quotient (R56). -/
theorem split_nibble (v : Reading) :
    split .nibble v = (BitVec.ofNat 8 (v.toNat % 16), BitVec.ofNat 8 (v.toNat / 16)) := by
  simp only [split, Prod.mk.injEq]
  constructor <;> apply BitVec.eq_of_toNat_eq <;>
    simp [BitVec.extractLsb'_toNat, Nat.shiftRight_eq_div_pow]

/-- The low byte and the four bits above it, as remainder and quotient (R57). -/
theorem split_le16 (v : Reading) :
    split .le16 v = (BitVec.ofNat 8 (v.toNat % 256), BitVec.ofNat 8 (v.toNat / 256)) := by
  simp only [split, Prod.mk.injEq]
  constructor <;> apply BitVec.eq_of_toNat_eq <;>
    simp [BitVec.extractLsb'_toNat, Nat.shiftRight_eq_div_pow]
  omega

/-- The frame of a report is the 'P' frame (R56). -/
theorem mkFrame_pot (sp : Split) (j : Byte) (v : Reading) :
    mkFrame cmdP j (split sp v).1 (split sp v).2 = potFrame sp j v.toNat := by
  rw [mkFrame_eq_summed]
  cases sp
  · rw [split_nibble]; rfl
  · rw [split_le16]; rfl

end Sys2Proof

namespace Sys2Proof.Machine

/-- The distance of two readings is max less min (R83). -/
theorem absdiff_eq_distance (a b : Nat) : absdiff a b = distance a b := by
  simp only [absdiff, distance]
  split <;> omega

/-- `exc` says that the distance is above `THRESHOLD` (R83). -/
theorem exc_eq_true {s : State} {j : Byte} {v : Reading} :
    exc s j v = true ↔ s.cfg.THRESHOLD < distance v.toNat (s.alastAt j).toNat := by
  simp [exc, absdiff_eq_distance]

end Sys2Proof.Machine
end

