-- ==== Sys2Proof/Laws/Ops.lean ====
section
/-! SUPPORT. Everything the shared operations and the channel steps can do, said once. -/

namespace Sys2Proof.Machine

/-! ### Sequencing of outcomes -/

@[simp] theorem andThen_next (s : State) (k : State → Host.Outcome State Fault Refusal) :
    andThen (.next s) k = k s := rfl

@[simp] theorem andThen_fault (r : Fault) (k : State → Host.Outcome State Fault Refusal) :
    andThen (.fault r) k = .fault r := rfl

/-- A next state came through both halves. -/
theorem andThen_eq_next {o : Host.Outcome State Fault Refusal} {k : State → Host.Outcome State Fault Refusal}
    {t : State} (h : andThen o k = .next t) : ∃ u, o = .next u ∧ k u = .next t := by
  cases o with
  | next u => exact ⟨u, rfl, h⟩
  | fault r => cases h
  | refused r => cases h

/-- What every channel step of a scan keeps, the scan keeps. -/
theorem scan_keeps {op : Byte → State → Host.Outcome State Fault Refusal} (P : State → Prop)
    (hop : ∀ i s t, P s → op i s = .next t → P t) :
    ∀ (ids : List Byte) (s t : State), P s → scan op ids s = .next t → P t
  | [], s, t, hs, h => by cases h; exact hs
  | i :: ids, s, t, hs, h => by
    obtain ⟨u, hu, hk⟩ := andThen_eq_next h
    exact scan_keeps P hop ids u t (hop i s u hs hu) hk

/-- A scan in two parts. -/
theorem scan_append (op : Byte → State → Host.Outcome State Fault Refusal) :
    ∀ (as bs : List Byte) (s : State), scan op (as ++ bs) s = andThen (scan op as s) (scan op bs)
  | [], bs, s => rfl
  | a :: as, bs, s => by
    simp only [List.cons_append, scan]
    cases op a s with
    | next u => exact scan_append op as bs u
    | fault r => rfl
    | refused r => rfl

/-- The channels of `n + 1` are those of `n` and one more. -/
theorem channels_succ (n : Nat) : channels (n + 1) = channels n ++ [BitVec.ofNat 8 n] := by
  simp [channels, List.range_succ]

/-! ### The digital step -/

/-- All that the effect of `DSTEP i` writes (R70). -/
theorem State.digital_eq (s : State) (i : Byte) (x : Bool) :
    s.digital i x = if x ≠ s.dlastAt i then
      { s with dlast := s.dlast.set i.toNat x, out := s.out ++ [buttonFrame i x] } else s := by
  rw [← mkFrame_button]
  by_cases h : x = s.dlastAt i <;>
    simp [State.digital, edge, h, State.emitFrame, State.emit, State.setDlast]

/-- `DSTEP i` on a channel that exists (R70). -/
theorem execDstep_of_lt {s : State} {i : Byte} (h : i.toNat < s.cfg.N) :
    execDstep i s = .next (s.digital i (s.dIn i)).nextInstant := by simp [execDstep, h]

/-- A next state of `DSTEP i` comes from a channel that exists (R70). -/
theorem execDstep_next {s t : State} {i : Byte} (h : execDstep i s = .next t) :
    i.toNat < s.cfg.N ∧ t = (s.digital i (s.dIn i)).nextInstant := by
  unfold execDstep at h
  split at h
  · exact ⟨‹_›, by cases h; rfl⟩
  · cases h

@[simp] theorem State.digital_cfg (s : State) (i : Byte) (x : Bool) : (s.digital i x).cfg = s.cfg := by
  rw [State.digital_eq]; split <;> rfl
@[simp] theorem State.digital_alast (s : State) (i : Byte) (x : Bool) : (s.digital i x).alast = s.alast := by
  rw [State.digital_eq]; split <;> rfl
@[simp] theorem State.digital_decay (s : State) (i : Byte) (x : Bool) : (s.digital i x).decay = s.decay := by
  rw [State.digital_eq]; split <;> rfl
@[simp] theorem State.digital_seq (s : State) (i : Byte) (x : Bool) : (s.digital i x).seq = s.seq := by
  rw [State.digital_eq]; split <;> rfl
@[simp] theorem State.digital_timer (s : State) (i : Byte) (x : Bool) : (s.digital i x).timer = s.timer := by
  rw [State.digital_eq]; split <;> rfl
@[simp] theorem State.digital_past (s : State) (i : Byte) (x : Bool) : (s.digital i x).past = s.past := by
  rw [State.digital_eq]; split <;> rfl
@[simp] theorem State.digital_stim (s : State) (i : Byte) (x : Bool) : (s.digital i x).stim = s.stim := by
  rw [State.digital_eq]; split <;> rfl
@[simp] theorem State.digital_drawn (s : State) (i : Byte) (x : Bool) : (s.digital i x).drawn = s.drawn := by
  rw [State.digital_eq]; split <;> rfl

/-- The level is stored; on no edge it is stored already. -/
@[simp] theorem State.digital_dlast (s : State) (i : Byte) (x : Bool) :
    (s.digital i x).dlast = s.dlast.set i.toNat x := by
  rw [State.digital_eq]
  split
  · rfl
  · rename_i hx
    rw [not_not.mp hx]
    exact (set_getD_self _ _ _).symm

/-- At most one frame, on an edge (R74). -/
@[simp] theorem State.digital_out (s : State) (i : Byte) (x : Bool) :
    (s.digital i x).out = s.out ++ if x ≠ s.dlastAt i then [buttonFrame i x] else [] := by
  rw [State.digital_eq]
  split <;> simp

/-! ### The analog step -/

/-- All that the effect of `ASTEP j` writes (R80). -/
theorem State.analog_eq (s : State) (j : Byte) (v : Reading) :
    s.analog j v = { s with
      alast := s.alast.set j.toNat (reference s j v)
      decay := s.decay.set j.toNat (if 1 < counter s j v then counter s j v - 1 else counter s j v)
      out := s.out ++ if 1 < counter s j v then [potFrame s.cfg.SPLIT j v.toNat] else [] } := by
  by_cases h : 1 < counter s j v <;>
    simp [State.analog, act, h, State.report, State.emitFrame, State.emit, State.setAlast, State.setDecay,
      mkFrame_pot]

/-- `ASTEP j` on a channel that exists (R80). -/
theorem execAstep_of_lt {s : State} {j : Byte} (h : j.toNat < s.cfg.M) :
    execAstep j s = .next (s.analog j (s.aIn j)).nextInstant := by simp [execAstep, h]

/-- A next state of `ASTEP j` comes from a channel that exists (R80). -/
theorem execAstep_next {s t : State} {j : Byte} (h : execAstep j s = .next t) :
    j.toNat < s.cfg.M ∧ t = (s.analog j (s.aIn j)).nextInstant := by
  unfold execAstep at h
  split at h
  · exact ⟨‹_›, by cases h; rfl⟩
  · cases h

/-- `a1` in the terms of the contract (R80). -/
theorem reference_eq (s : State) (j : Byte) (v : Reading) : reference s j v =
    if s.cfg.THRESHOLD < distance v.toNat (s.alastAt j).toNat then v else s.alastAt j := by
  simp [reference, exc_eq_true]

/-- `c1` in the terms of the contract (R80). -/
theorem counter_eq (s : State) (j : Byte) (v : Reading) : counter s j v =
    if s.cfg.THRESHOLD < distance v.toNat (s.alastAt j).toNat then s.cfg.IDLE_TIMEOUT else s.decayAt j := by
  simp [counter, exc_eq_true]

@[simp] theorem State.analog_cfg (s : State) (j : Byte) (v : Reading) : (s.analog j v).cfg = s.cfg := by
  rw [State.analog_eq]
@[simp] theorem State.analog_dlast (s : State) (j : Byte) (v : Reading) : (s.analog j v).dlast = s.dlast := by
  rw [State.analog_eq]
@[simp] theorem State.analog_alast (s : State) (j : Byte) (v : Reading) :
    (s.analog j v).alast = s.alast.set j.toNat (reference s j v) := by rw [State.analog_eq]
@[simp] theorem State.analog_decay (s : State) (j : Byte) (v : Reading) : (s.analog j v).decay =
    s.decay.set j.toNat (if 1 < counter s j v then counter s j v - 1 else counter s j v) := by
  rw [State.analog_eq]
@[simp] theorem State.analog_seq (s : State) (j : Byte) (v : Reading) : (s.analog j v).seq = s.seq := by
  rw [State.analog_eq]
@[simp] theorem State.analog_timer (s : State) (j : Byte) (v : Reading) : (s.analog j v).timer = s.timer := by
  rw [State.analog_eq]
@[simp] theorem State.analog_past (s : State) (j : Byte) (v : Reading) : (s.analog j v).past = s.past := by
  rw [State.analog_eq]
@[simp] theorem State.analog_stim (s : State) (j : Byte) (v : Reading) : (s.analog j v).stim = s.stim := by
  rw [State.analog_eq]
@[simp] theorem State.analog_drawn (s : State) (j : Byte) (v : Reading) : (s.analog j v).drawn = s.drawn := by
  rw [State.analog_eq]

/-- At most one frame, in an active cycle (R90). -/
@[simp] theorem State.analog_out (s : State) (j : Byte) (v : Reading) : (s.analog j v).out =
    s.out ++ if 1 < counter s j v then [potFrame s.cfg.SPLIT j v.toNat] else [] := by
  rw [State.analog_eq]

/-! ### Legal states -/

theorem State.wf_setters {s : State} (h : s.wf) :
    s.cfg.wf ∧ s.dlast.length = s.cfg.N ∧ s.alast.length = s.cfg.M ∧ s.decay.length = s.cfg.M :=
  ⟨h.1, h.2.1, h.2.2.1, h.2.2.2.1⟩

/-- `DSTEP` keeps a state legal. -/
theorem execDstep_keeps_wf {s t : State} {i : Byte} (h : s.wf) (hx : execDstep i s = .next t) : t.wf := by
  obtain ⟨hi, rfl⟩ := execDstep_next hx
  obtain ⟨hc, hd, ha, hy, hv, hn, hq⟩ := h
  refine ⟨by simpa using hc, ?_, by simpa using ha, by simpa using hy, by simpa using hv, by simpa using hn,
    by simpa using hq⟩
  rw [State.nextInstant_dlast, State.digital_dlast]
  simpa using hd

/-- The counter after the excursion is applied is at most `IDLE_TIMEOUT` (R17). -/
theorem counter_le {s : State} (h : s.wf) (j : Byte) (v : Reading) : counter s j v ≤ s.cfg.IDLE_TIMEOUT := by
  rw [counter_eq]
  split
  · exact le_refl _
  · exact State.decayAt_le h j

/-- The new reference has `W` bits. -/
theorem reference_lt {s : State} (h : s.wf) (j : Byte) : (reference s j (s.aIn j)).toNat < 2 ^ s.cfg.W := by
  rw [reference_eq]
  split
  · exact State.aIn_lt s j
  · exact State.alastAt_lt h j

/-- `ASTEP` keeps a state legal. -/
theorem execAstep_keeps_wf {s t : State} {j : Byte} (h : s.wf) (hx : execAstep j s = .next t) : t.wf := by
  obtain ⟨hj, rfl⟩ := execAstep_next hx
  have hcl := counter_le h j (s.aIn j)
  have hrl := reference_lt h j
  obtain ⟨hc, hd, ha, hy, hv, hn, hq⟩ := h
  refine ⟨by simpa using hc, by simpa using hd, by simpa using ha, by simpa using hy, ?_, ?_, by simpa using hq⟩
  · refine List.all_eq_true.mpr fun v hm => decide_eq_true ?_
    simp only [State.nextInstant_alast, State.analog_alast, State.nextInstant_cfg, State.analog_cfg] at *
    obtain hm | rfl := List.mem_or_eq_of_mem_set hm
    · simpa using List.all_eq_true.mp hv v hm
    · exact hrl
  · intro d hm
    simp only [State.nextInstant_decay, State.analog_decay, State.nextInstant_cfg, State.analog_cfg] at *
    obtain hm | rfl := List.mem_or_eq_of_mem_set hm
    · exact hn d hm
    · split <;> omega

/-! ### One step of the sequencer -/

/-- All that a step does: it is in the wait, or it resets, or it runs the channel step that `seq` selects. -/
theorem step_cases {s t : State} (h : step s = .next t) :
    (s.resetNow = false ∧ s.seq.phase = .wait ∧ t = s.await) ∨
    (s.resetNow = true ∧ ∃ u, execReset s = .next u ∧ t = u.nextInstant) ∨
    (s.resetNow = false ∧ s.seq.phase = .dig ∧
      ∃ u, execDstep s.seq.idx s = .next u ∧ t = u.moveTo (afterDig u.cfg s.seq.idx)) ∨
    (s.resetNow = false ∧ s.seq.phase = .ana ∧
      ∃ u, execAstep s.seq.idx s = .next u ∧ t = u.moveTo (afterAna u.cfg s.seq.idx)) := by
  unfold step State.selected at h
  by_cases hr : s.resetNow = true
  · simp only [hr, if_true] at h
    obtain ⟨u, hu, hk⟩ := andThen_eq_next h
    cases hk
    exact .inr (.inl ⟨hr, u, hu, rfl⟩)
  · simp only [hr] at h
    have hr' : s.resetNow = false := by simpa using hr
    cases hp : s.seq.phase with
    | wait =>
      simp only [hp] at h
      cases h
      exact .inl ⟨hr', rfl, rfl⟩
    | dig =>
      simp only [hp] at h
      obtain ⟨u, hu, hk⟩ := andThen_eq_next h
      cases hk
      exact .inr (.inr (.inl ⟨hr', rfl, u, hu, rfl⟩))
    | ana =>
      simp only [hp] at h
      obtain ⟨u, hu, hk⟩ := andThen_eq_next h
      cases hk
      exact .inr (.inr (.inr ⟨hr', rfl, u, hu, rfl⟩))

/-- The positions the sequencer moves to are legal (R18). -/
theorem afterWait_legal (c : Config) : (afterWait c).legal c := by
  unfold afterWait
  split
  · simp_all [Seq.legal]
  · split <;> simp_all [Seq.legal]

/-- The index after `i`, when it is a channel of at most 256, is the next number (R18). -/
theorem toNat_succ {n : Nat} (hn : n ≤ 256) {i : Byte} (h : i.toNat + 1 < n) : (i + 1).toNat = i.toNat + 1 := by
  rw [BitVec.toNat_add]
  simp
  omega

theorem afterDig_legal {c : Config} (hc : c.wf) (i : Byte) : (afterDig c i).legal c := by
  have hN := hc.1
  unfold afterDig
  split
  · rename_i h
    have := toNat_succ hN h
    refine ⟨by simp, fun _ => ?_, by simp⟩
    show (i + 1).toNat < c.N
    omega
  · split <;> simp_all [Seq.legal]

theorem afterAna_legal {c : Config} (hc : c.wf) (j : Byte) : (afterAna c j).legal c := by
  have hM := hc.2.1
  unfold afterAna
  split
  · rename_i h
    have := toNat_succ hM h
    refine ⟨by simp, by simp, fun _ => ?_⟩
    show (j + 1).toNat < c.M
    omega
  · simp [Seq.legal]

end Sys2Proof.Machine
end

