-- ==== Sys2Proof/Laws/PerInstr.lean ====
section
/-! SUPPORT. Statements made per instruction: every encoding is five bytes long (R50, R61, R64). -/

namespace Sys2Proof.Laws.FrameLength

/-- The encoding of the instruction, where it has one, is five bytes long under either split. -/
def Statement (i : Instr) : Prop := ∀ (sp : Split) (bs : List Byte), encode sp i = some bs → bs.length = 5

theorem frameB (i : Byte) (level : Bool) : Statement (.frameB i level) := by
  intro sp bs h; cases h; rfl

theorem frameP (j : Byte) (v : Reading) : Statement (.frameP j v) := by
  intro sp bs h; cases h; rfl

theorem dstep (i : Byte) : Statement (.dstep i) := by intro sp bs h; cases h

theorem astep (j : Byte) : Statement (.astep j) := by intro sp bs h; cases h

theorem frame (c i d1 d2 : Byte) : Statement (.frame c i d1 d2) := by intro sp bs h; cases h

theorem poll : Statement .poll := by intro sp bs h; cases h

theorem reset : Statement .reset := by intro sp bs h; cases h

end Sys2Proof.Laws.FrameLength
end

