-- ==== Sys2Proof/Laws/Runs.lean ====
section
/-! SUPPORT. Runs: splitting them, what the reads of later instants are, and the two scans in closed form. -/

namespace Sys2Proof.Machine

/-! ### Events and runs -/

theorem State.tickNow_congr {s t : State} (hs : s.stim = t.stim) (hd : s.drawn = t.drawn) :
    s.tickNow = t.tickNow := by simp [State.tickNow, hs, hd]

theorem State.resetNow_congr {s t : State} (hs : s.stim = t.stim) (hd : s.drawn = t.drawn) :
    s.resetNow = t.resetNow := by simp [State.resetNow, hs, hd]

/-- A run of `a + b` steps is a run of `a` and then one of `b`. -/
theorem steps_add (a b : Nat) : ∀ s, steps (a + b) s = andThen (steps a s) (steps b) := by
  induction a with
  | zero => intro s; simp [steps]
  | succ a ih =>
    intro s
    rw [show a + 1 + b = (a + b) + 1 by omega]
    simp only [steps]
    cases step s with
    | next u => simp [ih]
    | fault r => rfl
    | refused r => rfl

/-- The last of `n + 1` repetitions, peeled off. -/
theorem execTimes_succ_last (i : Instr) (n : Nat) :
    ∀ s, execTimes i (n + 1) s = andThen (execTimes i n s) (exec i) := by
  induction n with
  | zero => intro s; simp [execTimes]; cases exec i s <;> rfl
  | succ n ih =>
    intro s
    rw [execTimes]
    cases h : exec i s with
    | next u => rw [andThen_next, ih, execTimes, h, andThen_next]
    | fault r => simp [execTimes, h]
    | refused r => simp [execTimes, h]; rfl

/-- A channel step neither reads nor writes `seq` or the timer. -/
theorem execDstep_moveTo {s t : State} {i : Byte} (q : Seq) (h : execDstep i s = .next t) :
    execDstep i (s.moveTo q) = .next (t.moveTo q) := by
  obtain ⟨hi, rfl⟩ := execDstep_next h
  rw [execDstep_of_lt (by simpa using hi), State.dIn_moveTo, State.digital_eq, State.digital_eq,
    show (s.moveTo q).dlastAt i = s.dlastAt i from rfl]
  split <;> rfl

theorem execAstep_moveTo {s t : State} {j : Byte} (q : Seq) (h : execAstep j s = .next t) :
    execAstep j (s.moveTo q) = .next (t.moveTo q) := by
  obtain ⟨hj, rfl⟩ := execAstep_next h
  rw [execAstep_of_lt (by simpa using hj)]
  simp only [State.analog_eq, State.nextInstant, State.moveTo]
  rfl

/-! ### The registers of the channel a step visits -/

/-- What `ASTEP j` leaves in its own channel and in `out` (R80). -/
theorem execAstep_own {s t : State} {j : Byte} (hw : s.wf) (h : execAstep j s = .next t) :
    t.alastAt j = reference s j (s.aIn j) ∧
      t.decayAt j = (if 1 < counter s j (s.aIn j) then counter s j (s.aIn j) - 1
        else counter s j (s.aIn j)) ∧
      t.out = s.out ++
        if 1 < counter s j (s.aIn j) then [potFrame s.cfg.SPLIT j (s.aIn j).toNat] else [] := by
  obtain ⟨hj, rfl⟩ := execAstep_next h
  refine ⟨?_, ?_, by simp⟩
  · simp only [State.alastAt, State.nextInstant_alast, State.analog_alast]
    exact getD_set_self _ _ _ _ (by rw [hw.2.2.1]; exact hj)
  · simp only [State.decayAt, State.nextInstant_decay, State.analog_decay]
    exact getD_set_self _ _ _ _ (by rw [hw.2.2.2.1]; exact hj)

/-- What `DSTEP i` leaves in its own channel (R70). -/
theorem execDstep_own {s t : State} {i : Byte} (hw : s.wf) (h : execDstep i s = .next t) :
    t.dlastAt i = s.dIn i := by
  obtain ⟨hi, rfl⟩ := execDstep_next h
  simp only [State.dlastAt, State.nextInstant_dlast, State.digital_dlast]
  exact getD_set_self _ _ _ _ (by rw [hw.2.1]; exact hi)

/-- `DSTEP i` leaves every other channel's level alone (R16). -/
theorem execDstep_other {s t : State} {i k : Byte} (hk : k ≠ i) (h : execDstep i s = .next t) :
    t.dlastAt k = s.dlastAt k := by
  obtain ⟨-, rfl⟩ := execDstep_next h
  simp only [State.dlastAt, State.nextInstant_dlast, State.digital_dlast]
  exact getD_set_ne _ _ _ _ _ (index_ne hk)

/-- `ASTEP j` leaves every other channel's registers alone (R16). -/
theorem execAstep_other {s t : State} {j k : Byte} (hk : k ≠ j) (h : execAstep j s = .next t) :
    t.alastAt k = s.alastAt k ∧ t.decayAt k = s.decayAt k := by
  obtain ⟨-, rfl⟩ := execAstep_next h
  simp only [State.alastAt, State.decayAt, State.nextInstant_alast, State.nextInstant_decay,
    State.analog_alast, State.analog_decay]
  exact ⟨getD_set_ne _ _ _ _ _ (index_ne hk), getD_set_ne _ _ _ _ _ (index_ne hk)⟩

/-! ### The scans in closed form -/

theorem toNat_ofNat8 {n : Nat} (h : n < 256) : (BitVec.ofNat 8 n).toNat = n := by
  simp; omega

/-- The digital scan of the first `n` channels: each on the reading of its own instant (R107). -/
theorem scan_execDstep (s : State) (hN : s.cfg.N ≤ 256) (hl : s.dlast.length = s.cfg.N) : ∀ n, n ≤ s.cfg.N →
    ∃ t, scan execDstep (channels n) s = .next t ∧ t.cfg = s.cfg ∧ t.seq = s.seq ∧ t.past = s.past ∧
      t.timer = s.timer ∧ t.alast = s.alast ∧ t.decay = s.decay ∧ t.stim = s.stim.drop n ∧
      t.drawn = s.drawn + n ∧ t.dlast.length = s.cfg.N ∧
      (∀ i : Byte, i.toNat < n → t.dlastAt i = (s.ahead i.toNat).dIn i) ∧
      (∀ i : Byte, n ≤ i.toNat → t.dlastAt i = s.dlastAt i) ∧
      t.out = s.out ++ (List.range n).flatMap fun k =>
        let i := BitVec.ofNat 8 k
        let x := (s.ahead k).dIn i
        if x ≠ s.dlastAt i then [buttonFrame i x] else [] := by
  intro n
  induction n with
  | zero => intro _; exact ⟨s, rfl, rfl, rfl, rfl, rfl, rfl, rfl, rfl, rfl, hl, by simp, by simp, by simp⟩
  | succ n ih =>
    intro hn
    obtain ⟨t, h0, h1, h2, h3, h4, h5, h6, h7, h8, h9, h10, h11, h12⟩ := ih (by omega)
    have hk : (BitVec.ofNat 8 n).toNat = n := toNat_ofNat8 (by omega)
    have hin : t.dIn (BitVec.ofNat 8 n) = (s.ahead n).dIn (BitVec.ofNat 8 n) :=
      State.dIn_congr (by simp [h7]) (by simp [h8]) _
    have hx : execDstep (BitVec.ofNat 8 n) t =
        .next (t.digital (BitVec.ofNat 8 n) (t.dIn (BitVec.ofNat 8 n))).nextInstant :=
      execDstep_of_lt (by rw [hk, h1]; omega)
    refine ⟨_, by rw [channels_succ, scan_append, h0, andThen_next, scan, hx]; rfl, by simpa, by simpa,
      by simpa, by simpa, by simpa, by simpa, by simp [h7], by simp [h8]; omega, by simpa, ?_, ?_, ?_⟩
    · intro i hi
      by_cases e : i = BitVec.ofNat 8 n
      · subst e
        rw [hk, ← hin]
        simp only [State.dlastAt, State.nextInstant_dlast, State.digital_dlast]
        exact getD_set_self _ _ _ _ (by omega)
      · have : i.toNat ≠ n := fun e' => e (BitVec.eq_of_toNat_eq (by omega))
        rw [execDstep_other e hx]
        exact h10 i (by omega)
    · intro i hi
      rw [execDstep_other (fun e => by subst e; omega) hx]
      exact h11 i (by omega)
    · simp only [State.nextInstant_out, State.digital_out]
      rw [h12, List.range_succ, List.flatMap_append, ← List.append_assoc, hin, h11 _ (by omega)]
      simp

/-- The analog scan of the first `n` channels: each on the reading of its own instant (R107). -/
theorem scan_execAstep (s : State) (hM : s.cfg.M ≤ 256) (hl : s.alast.length = s.cfg.M)
    (hd : s.decay.length = s.cfg.M) : ∀ n, n ≤ s.cfg.M →
    ∃ t, scan execAstep (channels n) s = .next t ∧ t.cfg = s.cfg ∧ t.seq = s.seq ∧ t.past = s.past ∧
      t.timer = s.timer ∧ t.dlast = s.dlast ∧ t.stim = s.stim.drop n ∧ t.drawn = s.drawn + n ∧
      t.alast.length = s.cfg.M ∧ t.decay.length = s.cfg.M ∧
      (∀ j : Byte, j.toNat < n → t.alastAt j = reference s j ((s.ahead j.toNat).aIn j) ∧
        t.decayAt j = (if 1 < counter s j ((s.ahead j.toNat).aIn j)
          then counter s j ((s.ahead j.toNat).aIn j) - 1 else counter s j ((s.ahead j.toNat).aIn j))) ∧
      (∀ j : Byte, n ≤ j.toNat → t.alastAt j = s.alastAt j ∧ t.decayAt j = s.decayAt j) ∧
      t.out = s.out ++ (List.range n).flatMap fun k =>
        let j := BitVec.ofNat 8 k
        let v := (s.ahead k).aIn j
        if 1 < counter s j v then [potFrame s.cfg.SPLIT j v.toNat] else [] := by
  intro n
  induction n with
  | zero => intro _; exact ⟨s, rfl, rfl, rfl, rfl, rfl, rfl, rfl, rfl, hl, hd, by simp, by simp, by simp⟩
  | succ n ih =>
    intro hn
    obtain ⟨t, h0, h1, h2, h3, h4, h5, h7, h8, h9, h9', h10, h11, h12⟩ := ih (by omega)
    have hk : (BitVec.ofNat 8 n).toNat = n := toNat_ofNat8 (by omega)
    have hin : t.aIn (BitVec.ofNat 8 n) = (s.ahead n).aIn (BitVec.ofNat 8 n) :=
      State.aIn_congr (by simp [h1]) (by simp [h7]) (by simp [h8]) _
    obtain ⟨ha, hc⟩ := h11 (BitVec.ofNat 8 n) (by omega)
    have hr : ∀ v, reference t (BitVec.ofNat 8 n) v = reference s (BitVec.ofNat 8 n) v := by
      intro v; simp [reference_eq, ha, h1]
    have hcn : ∀ v, counter t (BitVec.ofNat 8 n) v = counter s (BitVec.ofNat 8 n) v := by
      intro v; simp [counter_eq, ha, h1, hc]
    have hx : execAstep (BitVec.ofNat 8 n) t =
        .next (t.analog (BitVec.ofNat 8 n) (t.aIn (BitVec.ofNat 8 n))).nextInstant :=
      execAstep_of_lt (by rw [hk, h1]; omega)
    refine ⟨_, by rw [channels_succ, scan_append, h0, andThen_next, scan, hx]; rfl, by simpa, by simpa,
      by simpa, by simpa, by simpa, by simp [h7], by simp [h8]; omega, by simpa, by simpa, ?_, ?_, ?_⟩
    · intro j hj
      by_cases e : j = BitVec.ofNat 8 n
      · subst e
        rw [hk, ← hin, ← hr, ← hcn]
        simp only [State.alastAt, State.decayAt, State.nextInstant_alast, State.analog_alast,
          State.nextInstant_decay, State.analog_decay]
        exact ⟨getD_set_self _ _ _ _ (by omega), getD_set_self _ _ _ _ (by omega)⟩
      · have : j.toNat ≠ n := fun e' => e (BitVec.eq_of_toNat_eq (by omega))
        obtain ⟨x, y⟩ := execAstep_other e hx
        rw [x, y]
        exact h10 j (by omega)
    · intro j hj
      have e : j ≠ BitVec.ofNat 8 n := by rintro rfl; omega
      obtain ⟨x, y⟩ := execAstep_other e hx
      rw [x, y]
      exact h11 j (by omega)
    · simp only [State.nextInstant_out, State.analog_out]
      rw [h12, List.range_succ, List.flatMap_append, ← List.append_assoc, hin, hcn, h1]
      simp

end Sys2Proof.Machine
end

