-- ==== Sys2Proof/Tests/Slice0.lean ====
section
/-! SUPPORT. The model's own tests: expected results are the spec's vectors (95_test_vectors.md) or its bit
patterns; and, for every obligation with hypotheses, a witness that they can be met. -/

namespace Sys2Proof.Tests

open Sys2Proof.Machine

/-! ### Helpers -/

/-- A configuration with `n` digital and `m` analog channels of 12 bits. -/
def cfg (n m th it : Nat) : Config := ⟨n, m, 12, th, it, 8, 100, .nibble, false⟩

/-- One instant without events. -/
def reads (din : List Bool) (ain : List Reading) : Instant := ⟨false, false, din, ain⟩

/-- The state after reset of `c` in an environment that presents `stim`. -/
def start (c : Config) (stim : List Instant) : State := State.resetIn c stim 0

/-- Two channels of each kind, as in program P3 of the spec (`THRESHOLD` 10, `IDLE_TIMEOUT` 4). -/
def c22 : Config := cfg 2 2 10 4

/-- A channel `j` of four with the registers of a row of table 2.2. -/
def row (it : Nat) (j : Byte) (alast : Reading) (decay : Nat) (v : Reading) : State :=
  ((start (cfg 0 4 10 it) [reads [] (List.replicate 4 v)]).setAlast j alast).setDecay j decay

/-! ### WellFormed refuses -/

theorem test_illformed_frameB : (Instr.frameB 2 true).check c22 = .error .digitalIndex := by decide
theorem test_illformed_frameP : (Instr.frameP 2 0).check c22 = .error .analogIndex := by decide
theorem test_illformed_reading :
    (Instr.frameP 0 1024).check { c22 with W := 10 } = .error .readingRange := by decide
theorem test_illformed_dstep : (Instr.dstep 2).check c22 = .error .digitalIndex := by decide
theorem test_illformed_astep : (Instr.astep 2).check c22 = .error .analogIndex := by decide
theorem test_wellformed : [Instr.frameB 1 true, .frameP 1 4095, .dstep 1, .astep 1, .frame 0 0 0 0, .poll,
    .reset].all (·.wf c22) = true := by decide

/-! ### Configurations refused when the model is built (R5, D16) -/

theorem test_config_N : checkConfig { c22 with N := 257 } = .error .tooManyDigitalChannels := by decide
theorem test_config_M : checkConfig { c22 with M := 257 } = .error .tooManyAnalogChannels := by decide
theorem test_config_W : checkConfig { c22 with W := 13 } = .error .readingWidth := by decide
theorem test_config_DW : checkConfig { c22 with DW := 0 } = .error .counterWidth := by decide
theorem test_config_timeout : checkConfig { c22 with IDLE_TIMEOUT := 256 } = .error .timeoutTooLong := by decide
theorem test_config_good : checkConfig { c22 with IDLE_TIMEOUT := 255 } = .ok () := by decide

/-! ### Decoding: words written out bit by bit from the patterns of R53 and R56 -/

/-- `01000010 iiiiiiii 0000000v 00000000 cccccccc`, `i` = 5, `v` = 1 (S1: `42 05 01 00 48`). -/
theorem test_decode_frameB :
    decodeTableWord 40 0b0100001000000101000000010000000001001000 = some (.frameB 5 true) := by decide

/-- `01010000 jjjjjjjj 0000llll hhhhhhhh cccccccc`, `j` = 2, reading 300 = 0x12C (2.4: `0C 12`). -/
theorem test_decode_frameP :
    decodeTableWord 40 0b0101000000000010000011000001001001110000 = some (.frameP 2 300) := by decide

theorem test_decode_rest : decode .nibble [0x42, 0xBD, 0x01, 0x00, 0x00, 0x50] =
    .ok (.frameB 189 true, [0x50]) := by decide
theorem test_decode_le16 : decode .le16 [0x50, 0x02, 0x34, 0x00, 0x86] = .ok (.frameP 2 52, []) := by decide
theorem test_decode_bad_checksum : decodeTableWord 40 0x4200010044 = none := by decide
theorem test_decode_unused_byte : decodeTableWord 40 0x4200010144 = none := by decide
theorem test_decode_high_nibble : decodeTableWord 40 0x5002120367 = none := by decide
theorem test_encode_frameB : encode .nibble (.frameB 255 false) = some [0x42, 0xFF, 0x00, 0x00, 0x41] := by decide
theorem test_encode_frameP : encode .nibble (.frameP 2 1023) = some [0x50, 0x02, 0x0F, 0x3F, 0xA0] := by decide

/-! ### One step each -/

/-- 2.1: index 255, rising edge, `42 FF 01 00 42`. -/
theorem test_dstep_rising : (nextOf (exec (.dstep 255) (start (cfg 256 0 10 4)
    [reads (List.replicate 256 true) []]))).map (fun t => (t.dlastAt 255, t.out)) =
    some (true, [⟨0x42, 0xFF, 0x01, 0x00, 0x42⟩]) := by decide

/-- 2.1: falling edge, `42 00 00 00 42`. -/
theorem test_dstep_falling : (nextOf (exec (.dstep 0) ((start c22 [reads [false] []]).setDlast 0 true))).map
    (fun t => (t.dlastAt 0, t.out)) = some (false, [⟨0x42, 0x00, 0x00, 0x00, 0x42⟩]) := by decide

/-- 2.2 row 8: a downward excursion, no wrap in the distance, `50 03 09 1E 7A`. -/
theorem test_astep_downward : (nextOf (exec (.astep 3) (row 100 3 500 1 489))).map
    (fun t => (t.alastAt 3, t.decayAt 3, t.out)) =
    some (489, 99, [⟨0x50, 0x03, 0x09, 0x1E, 0x7A⟩]) := by decide

/-- 2.2 row 9: the tail reports the fresh reading and keeps the reference, `50 01 07 1F 77`. -/
theorem test_astep_tail : (nextOf (exec (.astep 1) (row 100 1 500 57 503))).map
    (fun t => (t.alastAt 1, t.decayAt 1, t.out)) =
    some (500, 56, [⟨0x50, 0x01, 0x07, 0x1F, 0x77⟩]) := by decide

/-- 2.3: the sum 605 wraps twice, `50 FF 0F FF 5D`. -/
theorem test_frame_wraps : (nextOf (exec (.frame 0x50 0xFF 0x0F 0xFF) (start c22 []))).map State.out =
    some [⟨0x50, 0xFF, 0x0F, 0xFF, 0x5D⟩] := by decide

/-- 2.3: the largest sum, `FF FF FF FF FC`. -/
theorem test_frame_total : (nextOf (exec (.frame 0xFF 0xFF 0xFF 0xFF) (start c22 []))).map State.out =
    some [⟨0xFF, 0xFF, 0xFF, 0xFF, 0xFC⟩] := by decide

/-- 2.3: `42 BE 00 00 00`, sum exactly 256. -/
theorem test_frameB : (nextOf (exec (.frameB 0xBE false) (start c22 []))).map State.out =
    some [⟨0x42, 0xBE, 0x00, 0x00, 0x00⟩] := by decide

/-- 2.4: reading 2048 on channel 2, `50 02 00 80 D2`. -/
theorem test_frameP : (nextOf (exec (.frameP 2 2048) (start c22 []))).map State.out =
    some [⟨0x50, 0x02, 0x00, 0x80, 0xD2⟩] := by decide

/-- The example of R111: `42 00 01 00 43` and then `50 00 02 03 55`. -/
theorem test_poll : (nextOf (exec .poll (start (cfg 1 1 10 3) (List.replicate 2 (reads [true] [50]))))).map
    (fun t => (t.dlast, t.alast, t.decay, t.out)) =
    some ([true], [50], [2], [⟨0x42, 0x00, 0x01, 0x00, 0x43⟩, ⟨0x50, 0x00, 0x02, 0x03, 0x55⟩]) := by decide

/-- The example of R140: out of `(ANA, 1)`; no frame, the one handed over stays. -/
theorem test_reset : (nextOf (exec .reset { start c22 [] with
      dlast := [true, false], alast := [30, 4084], decay := [1, 2], seq := ⟨.ana, 1⟩
      out := [buttonFrame 0 true] })).map
    (fun t => (t.dlast, t.alast, t.decay, t.seq, t.sent)) =
    some ([false, false], [0, 0], [0, 0], ⟨.wait, 0⟩, [buttonFrame 0 true]) := by decide

/-- 2.5: `(DIG, 1)` with `N` = 2, `M` = 1 goes to `(ANA, 0)`. -/
theorem test_step_dig : (nextOf (step { start (cfg 2 1 10 3) [reads [false, false] [0]] with
    seq := ⟨.dig, 1⟩ })).map State.seq = some ⟨.ana, 0⟩ := by decide

/-- 2.5: the wait with `N` = 0, `M` = 2 goes to `(ANA, 0)` on `tick`. -/
theorem test_step_tick : (nextOf (step (start (cfg 0 2 10 3) [⟨true, false, [], []⟩]))).map State.seq =
    some ⟨.ana, 0⟩ := by decide

/-- The machine after reset, poised for the word of `42 00 01 00 43`, produces it next. -/
theorem test_fetch_frameB : (nextOf (step (State.reset.withFetchWord 40 0x4200010043))).map State.out =
    some [⟨0x42, 0x00, 0x01, 0x00, 0x43⟩] := by decide

/-- The machine after reset, poised for the word of `50 FF 0F FF 5D`, produces it next. -/
theorem test_fetch_frameP : (nextOf (step (State.reset.withFetchWord 40 0x50FF0FFF5D))).map State.out =
    some [⟨0x50, 0xFF, 0x0F, 0xFF, 0x5D⟩] := by decide

/-- R60: with `W` = 10 the reading 1024 has a bit that no frame of the block carries; the word changes nothing. -/
theorem test_fetch_too_wide : decodeTableWord 40 0x5001004091 = some (.frameP 1 1024) ∧
    (start { c22 with W := 10 } []).withFetchWord 40 0x5001004091 = start { c22 with W := 10 } [] := by decide

/-! ### Witnesses: the hypotheses of the obligations can be met -/

/-- A legal state in the digital scan: channel 1, the last, about to see a rising edge. -/
def atDig : State := { start c22 (List.replicate 5 (reads [false, true] [50, 4095])) with seq := ⟨.dig, 1⟩ }

/-- A legal state in the analog scan: channel 1, the last, about to see an excursion. -/
def atAna : State := { start c22 (List.replicate 5 (reads [false, true] [50, 4095])) with seq := ⟨.ana, 1⟩ }

/-- A legal state in the wait, with `tick` now and no reset for a whole cycle. -/
def atTick : State := start c22 (List.replicate 5 ⟨true, false, [true, false], [50, 4095]⟩)

/-- A legal state in the wait, with nothing happening. -/
def atIdle : State := start c22 (List.replicate 5 (reads [true, false] [50, 4095]))

/-- A legal state in a scan, with a reset and a `tick` at once. -/
def atReset : State := { start c22 [⟨true, true, [], []⟩] with seq := ⟨.ana, 1⟩ }

/-- A legal state inside an activity window of analog channel 1, within `THRESHOLD` of the reference. -/
def inTail : State := (((start c22 (List.replicate 5 (reads [] [0, 4095]))).setAlast 1 4090).setDecay 1 2)

/-- A legal state with analog channel 1 at the floor, within `THRESHOLD` of the reference. -/
def atFloor : State := (((start c22 (List.replicate 5 (reads [] [0, 4095]))).setAlast 1 4085).setDecay 1 1)

/-- A legal state of a block whose windows are empty (`IDLE_TIMEOUT` = 1). -/
def noWindow : State := start (cfg 2 2 10 1) (List.replicate 5 (reads [] [0, 11]))

theorem witness_ResetStateIsLegal : ∃ c : Config, c.wf := ⟨c22, by decide⟩
theorem witness_ResetIsIdempotent : ∃ s t : State, exec .reset s = .next t := ⟨atDig, _, rfl⟩
theorem witness_ResetEventWinsInEveryPhase : ∃ s : State, s.resetNow = true := ⟨atReset, by decide⟩
theorem witness_NothingIsSentBeforeTheFirstTick : ∀ m, m < 5 →
    ((State.resetIn c22 (List.replicate 5 (reads [true] [4095])) 0).ahead m).tickNow = false ∧
    ((State.resetIn c22 (List.replicate 5 (reads [true] [4095])) 0).ahead m).resetNow = false := by decide
theorem witness_StepKeepsStatesLegal : ∃ s t : State, s.wf ∧ step s = .next t := ⟨atDig, _, by decide, rfl⟩
theorem witness_StepNeverFaultsOrRefuses : ∃ s : State, s.wf := ⟨atAna, by decide⟩
theorem witness_NoInstructionWritesAParameter :
    (∃ i s t, exec i s = .next t) ∧ ∃ s t : State, step s = .next t :=
  ⟨⟨.astep 1, atAna, _, rfl⟩, atReset, _, rfl⟩
theorem witness_StepRunsTheSelectedChannelStep_dig :
    ∃ s t : State, s.resetNow = false ∧ s.seq = ⟨.dig, 1⟩ ∧ exec (.dstep 1) s = .next t :=
  ⟨atDig, _, by decide, rfl, rfl⟩
theorem witness_StepRunsTheSelectedChannelStep_ana :
    ∃ s t : State, s.resetNow = false ∧ s.seq = ⟨.ana, 1⟩ ∧ exec (.astep 1) s = .next t :=
  ⟨atAna, _, by decide, rfl, rfl⟩
theorem witness_StepRunsTheSelectedChannelStep_stop :
    (∃ s : State, s.resetNow = false ∧ s.seq = ⟨.dig, 2⟩ ∧ ∃ r, exec (.dstep 2) s = .fault r) ∧
    ∃ s : State, s.resetNow = false ∧ s.seq = ⟨.ana, 2⟩ ∧ ∃ r, exec (.astep 2) s = .fault r :=
  ⟨⟨{ atDig with seq := ⟨.dig, 2⟩ }, by decide, rfl, _, rfl⟩,
    { atAna with seq := ⟨.ana, 2⟩ }, by decide, rfl, _, rfl⟩
theorem witness_TheWaitIsLeftByTickAlone :
    (atTick.resetNow = false ∧ atTick.seq.phase = .wait ∧ atTick.tickNow = true) ∧
    (atIdle.resetNow = false ∧ atIdle.seq.phase = .wait ∧ atIdle.tickNow = false) := by decide
theorem witness_TheNextOperationDoesNotDependOnData : ∃ s s' t t' : State, s.cfg.N = s'.cfg.N ∧
    s.cfg.M = s'.cfg.M ∧ s.seq = s'.seq ∧ s.resetNow = s'.resetNow ∧ s.tickNow = s'.tickNow ∧
    step s = .next t ∧ step s' = .next t' ∧ s ≠ s' :=
  ⟨atDig, atDig.setDlast 1 true, _, _, rfl, rfl, rfl, rfl, rfl, rfl, rfl, by decide⟩
theorem witness_NoOtherInstructionMovesSeq : ∃ i s t, i ≠ .reset ∧ exec i s = .next t :=
  ⟨.poll, atTick, _, by decide, rfl⟩
theorem witness_EveryStepUsesUpOneInstant : ∃ s t : State, step s = .next t := ⟨atTick, _, rfl⟩
theorem witness_PollPerformsEveryChannelStepInOrder :
    (atTick.resetNow = false ∧ atTick.seq = ⟨.wait, 0⟩ ∧ atTick.tickNow = true) ∧ atTick.wf := by decide
theorem witness_SingleStepsOfACycleEqualOnePoll : atTick.wf ∧ atTick.seq = ⟨.wait, 0⟩ ∧
    atTick.tickNow = true ∧
    ∀ k, k < 1 + atTick.cfg.N + atTick.cfg.M → (atTick.ahead k).resetNow = false := by decide
theorem witness_TickRecursInEveryRun : atTick.wf := by decide
theorem witness_EveryChannelComesUpAgain :
    atIdle.wf ∧ (1 : Byte).toNat < atIdle.cfg.N ∧ (1 : Byte).toNat < atIdle.cfg.M := by decide
theorem witness_ACycleAppendsOrderedFrames : ∃ s t : State, s.cfg.wf ∧ exec .poll s = .next t :=
  ⟨atTick, _, by decide, rfl⟩
theorem witness_DigitalStepReportsExactlyTheEdges :
    ((1 : Byte).toNat < atDig.cfg.N ∧ atDig.dIn 1 ≠ atDig.dlastAt 1) ∧
    ((0 : Byte).toNat < atDig.cfg.N ∧ atDig.dIn 0 = atDig.dlastAt 0) := by decide
theorem witness_StepsOfAbsentChannelsFault :
    atDig.cfg.N ≤ (2 : Byte).toNat ∧ atDig.cfg.M ≤ (2 : Byte).toNat := by decide
theorem witness_ButtonFramesAreTheTransitions : atDig.wf ∧ (1 : Byte).toNat < atDig.cfg.N := by decide
theorem witness_FirstCycleReportsExactlyTheHighChannels : c22.wf ∧ c22.DSEED = false ∧
    (1 : Byte).toNat < c22.N ∧ (buttonFrame 1 true).command = 0x42 ∧ (buttonFrame 1 true).index = 1 := by decide

/-- After reset nothing is reported and every level is the seed. -/
theorem start_tells (s : State) (hd : s.dlast = [false, false]) (hc : s.cfg = c22) (ho : s.out = []) :
    s.tells := by
  intro i hi
  rw [hc] at hi
  rw [hc, ho]
  have h2 : i.toNat < 2 := hi
  refine ⟨?_, rfl⟩
  unfold State.dlastAt
  rw [hd]
  obtain h | h : i.toNat = 0 ∨ i.toNat = 1 := by omega
  all_goals rw [h]; rfl

theorem witness_StepKeepsLastReportedLevel : ∃ s t : State, s.wf ∧ s.tells ∧ step s = .next t :=
  ⟨atDig, _, by decide, start_tells _ rfl rfl rfl, rfl⟩
theorem witness_AnalogStepFollowsTheContract :
    ((1 : Byte).toNat < atAna.cfg.M ∧ act (counter atAna 1 (atAna.aIn 1)) = true) ∧
    ((1 : Byte).toNat < atFloor.cfg.M ∧ act (counter atFloor 1 (atFloor.aIn 1)) = false) := by decide
theorem witness_ExcursionCycleEmitsFromAnyCounter :
    (∃ t, atAna.wf ∧ (1 : Byte).toNat < atAna.cfg.M ∧
      atAna.cfg.THRESHOLD < distance (atAna.aIn 1).toNat (atAna.alastAt 1).toNat ∧
      exec (.astep 1) atAna = .next t ∧ 1 < atAna.cfg.IDLE_TIMEOUT) ∧
    ∃ t, noWindow.wf ∧ (1 : Byte).toNat < noWindow.cfg.M ∧
      noWindow.cfg.THRESHOLD < distance (noWindow.aIn 1).toNat (noWindow.alastAt 1).toNat ∧
      exec (.astep 1) noWindow = .next t ∧ noWindow.cfg.IDLE_TIMEOUT ≤ 1 :=
  ⟨⟨_, by decide, by decide, by decide, rfl, by decide⟩, _, by decide, by decide, by decide, rfl, by decide⟩
theorem witness_ReportsCarryTheFreshReading :
    (∃ t, atAna.wf ∧ exec (.astep 1) atAna = .next t ∧ t.out ≠ atAna.out ∧
      atAna.cfg.THRESHOLD < distance (atAna.aIn 1).toNat (atAna.alastAt 1).toNat) ∧
    ∃ t, inTail.wf ∧ exec (.astep 1) inTail = .next t ∧ t.out ≠ inTail.out ∧
      ¬ inTail.cfg.THRESHOLD < distance (inTail.aIn 1).toNat (inTail.alastAt 1).toNat :=
  ⟨⟨_, by decide, rfl, by decide, by decide⟩, _, by decide, rfl, by decide, by decide⟩

/-- A knob that moves by more than `THRESHOLD` between any two cycles. -/
def moving : State := start c22 [reads [] [0, 100], reads [] [0, 200], reads [] [0, 100]]

theorem witness_SustainedMotionIsReportedEveryCycle : moving.wf ∧ (1 : Byte).toNat < moving.cfg.M ∧
    1 < moving.cfg.IDLE_TIMEOUT ∧ ∀ k, k < 3 → moving.cfg.THRESHOLD < distance ((moving.ahead k).aIn 1).toNat
      (if k = 0 then moving.alastAt 1 else (moving.ahead (k - 1)).aIn 1).toNat := by decide

/-- An excursion and then rest within `THRESHOLD`, to its very boundary. -/
def resting : State := start c22 [reads [] [0, 100], reads [] [0, 110], reads [] [0, 90], reads [] [0, 100]]

theorem witness_AWindowLastsIdleTimeoutLessOne : resting.wf ∧ (1 : Byte).toNat < resting.cfg.M ∧
    1 ≤ resting.cfg.IDLE_TIMEOUT ∧
    resting.cfg.THRESHOLD < distance (resting.aIn 1).toNat (resting.alastAt 1).toNat ∧
    ∀ k, k < 4 → 1 ≤ k → k ≤ 3 →
      distance ((resting.ahead k).aIn 1).toNat (resting.aIn 1).toNat ≤ resting.cfg.THRESHOLD := by decide
theorem witness_AtTheFloorAStillChannelIsSilent : (1 : Byte).toNat < atFloor.cfg.M ∧ atFloor.decayAt 1 ≤ 1 ∧
    ∀ k, k < 5 → distance ((atFloor.ahead k).aIn 1).toNat (atFloor.alastAt 1).toNat ≤
      atFloor.cfg.THRESHOLD := by decide
theorem witness_CounterNeverFallsBelowOne :
    (∃ t, inTail.wf ∧ exec (.astep 1) inTail = .next t ∧ t.decayAt 1 < inTail.decayAt 1 ∧
      1 ≤ inTail.cfg.IDLE_TIMEOUT ∧ 1 ≤ inTail.decayAt 1) ∧
    ∃ t, atAna.wf ∧ exec (.astep 1) atAna = .next t ∧ t.alastAt 1 ≠ atAna.alastAt 1 :=
  ⟨⟨_, by decide, rfl, by decide, by decide, by decide⟩, _, by decide, rfl, by decide⟩

/-- The state of `atAna` has no counter loaded and no reference moved. -/
theorem atAna_untouched (j : Byte) (h : j.toNat < atAna.cfg.M) : atAna.alastAt j = 0 := by
  have h2 : j.toNat < 2 := h
  unfold State.alastAt
  obtain h | h : j.toNat = 0 ∨ j.toNat = 1 := by omega
  all_goals rw [h]; rfl

theorem witness_StepKeepsZeroCountersUntouched : ∃ t, atAna.wf ∧ 1 ≤ atAna.cfg.IDLE_TIMEOUT ∧
    (∀ j : Byte, j.toNat < atAna.cfg.M → atAna.decayAt j = 0 → atAna.alastAt j = 0) ∧ step atAna = .next t ∧
    (1 : Byte).toNat < t.cfg.M ∧ t.decayAt 0 = 0 :=
  ⟨_, by decide, by decide, fun j h _ => atAna_untouched j h, rfl, by decide, by decide⟩
theorem witness_FirstAnalogReadingIsComparedWithZero :
    c22.wf ∧ (1 : Byte).toNat < c22.M ∧ 1 < c22.IDLE_TIMEOUT := by decide

/-- `atDig` with the other channels' registers changed. -/
def otherDig : State := (atDig.setDlast 0 true).setDecay 0 3

/-- `atAna` with the other channels' registers changed. -/
def otherAna : State := (atAna.setDlast 0 true).setAlast 0 77

theorem witness_ChannelsAreIndependent :
    (∃ t, exec (.dstep 1) atDig = .next t ∧ (0 : Byte) ≠ 1) ∧ (∃ t, exec (.astep 1) atAna = .next t) ∧
    (∃ t t', atDig.wf ∧ otherDig.wf ∧ atDig.cfg = otherDig.cfg ∧ atDig.dlastAt 1 = otherDig.dlastAt 1 ∧
      atDig.dIn 1 = otherDig.dIn 1 ∧ exec (.dstep 1) atDig = .next t ∧
      exec (.dstep 1) otherDig = .next t' ∧ atDig ≠ otherDig) ∧
    ∃ t t', atAna.wf ∧ otherAna.wf ∧ atAna.cfg = otherAna.cfg ∧ atAna.alastAt 1 = otherAna.alastAt 1 ∧
      atAna.decayAt 1 = otherAna.decayAt 1 ∧ atAna.aIn 1 = otherAna.aIn 1 ∧
      exec (.astep 1) atAna = .next t ∧ exec (.astep 1) otherAna = .next t' ∧ atAna ≠ otherAna :=
  ⟨⟨_, rfl, by decide⟩, ⟨_, rfl⟩,
    ⟨_, _, by decide, by decide, rfl, rfl, rfl, rfl, rfl, by decide⟩,
    _, _, by decide, by decide, rfl, rfl, rfl, rfl, rfl, rfl, by decide⟩
theorem witness_ChecksumMayBeAddedInAnyOrder :
    [(0x50 : Byte), 0xFF, 0x0F, 0xFF].Perm [0x50, 0x0F, 0xFF, 0xFF] := by decide
theorem witness_OneChangedByteIsDetected : (buttonFrame 0xFF true).sums ∧
    ({ buttonFrame 0xFF true with index := 0xFF } : Frame).sums := by decide
theorem witness_StepKeepsFramesProducible : ∃ s t : State, s.wf ∧ (∀ f ∈ s.sent, f.producible s.cfg) ∧
    step s = .next t ∧ s.sent ≠ [] :=
  ⟨{ atAna with out := [buttonFrame 1 true, potFrame .nibble 1 4095] }, _, by decide, by decide, rfl,
    by decide⟩
theorem witness_EveryInstructionKeepsChecksumsRight :
    (∃ i s t, (∀ f ∈ State.sent s, f.sums) ∧ exec i s = .next t) ∧
    ∃ s t : State, (∀ f ∈ s.sent, f.sums) ∧ step s = .next t :=
  ⟨⟨.frame 0xFF 0xFF 0xFF 0xFF, atDig.emit (buttonFrame 1 true), _, by decide, rfl⟩,
    atDig.emit (buttonFrame 1 true), _, by decide, rfl⟩
theorem witness_AStepHandsOverAtMostOneFrame : ∃ s t : State, step s = .next t := ⟨atAna, _, rfl⟩
theorem witness_DecodeOfEncodeIsTheInstruction :
    encode .le16 (.frameP 255 4095) = some [0x50, 0xFF, 0xFF, 0x0F, 0x5D] := by decide
theorem witness_DecodeAcceptsOnlyEncodedWords :
    decode .nibble [0x50, 0x02, 0x02, 0x03, 0x57, 0x42] = .ok (.frameP 2 50, [0x42]) := by decide
theorem witness_DecodeRefusesByName :
    ((0x43 : Byte) ≠ 0x42 ∧ (0x43 : Byte) ≠ 0x50) ∧ 1 < (2 : Byte).toNat ∧
    ((1 : Byte).toNat ≤ 1 ∧ (1 : Byte) ≠ 0) ∧ 0x0F < (0x10 : Byte).toNat ∧
    ((1 : Byte).toNat ≤ 1 ∧ (0 : Byte) ≠ 0x42 + 0 + 1) ∧
    ((0x0F : Byte).toNat ≤ 0x0F ∧ (0 : Byte) ≠ 0x50 + 0 + 0x0F + 0) ∧
    ([0x42, 0, 1, 0] : List Byte).length < 5 := by decide
theorem witness_APoisedMachineProducesTheWordNext :
    (atDig.wf ∧ decodeTableWord 40 0x4201010044 = some (.frameB 1 true) ∧ (1 : Byte).toNat < atDig.cfg.N) ∧
    (atDig.wf ∧ decodeTableWord 40 0x50010FFF5F = some (.frameP 1 4095) ∧ (1 : Byte).toNat < atDig.cfg.M ∧
      (4095 : Reading).toNat < 2 ^ atDig.cfg.W) := by decide

end Sys2Proof.Tests
end

section
/-! PROOFS. Channels are independent: what a channel step writes, and what it depends on (R16). -/

namespace Sys2Proof.Machine

/-! ### What a channel step writes outside its own kind, and what it emits -/

/-- `DSTEP` writes no analog register (R16). -/
theorem execDstep_analog_frame {s t : State} {i : Byte} (h : execDstep i s = .next t) :
    t.alast = s.alast ∧ t.decay = s.decay := by
  obtain ⟨-, rfl⟩ := execDstep_next h
  simp

/-- `ASTEP` writes no digital register (R16). -/
theorem execAstep_dlast {s t : State} {j : Byte} (h : execAstep j s = .next t) : t.dlast = s.dlast := by
  obtain ⟨-, rfl⟩ := execAstep_next h
  simp

/-- The frames `DSTEP i` hands over: one on an edge, else none (R70). -/
theorem execDstep_out {s t : State} {i : Byte} (h : execDstep i s = .next t) :
    t.out = s.out ++ if s.dIn i ≠ s.dlastAt i then [buttonFrame i (s.dIn i)] else [] := by
  obtain ⟨-, rfl⟩ := execDstep_next h
  rw [State.nextInstant_out, State.digital_out]

/-! ### What a channel step depends on -/

/-- `a1` depends on the channel's own reference only (R16). -/
theorem reference_congr {s s' : State} {j : Byte} (hc : s.cfg = s'.cfg) (ha : s.alastAt j = s'.alastAt j)
    (v : Reading) : reference s j v = reference s' j v := by
  rw [reference_eq, reference_eq, hc, ha]

/-- `c1` depends on the channel's own registers only (R16). -/
theorem counter_congr {s s' : State} {j : Byte} (hc : s.cfg = s'.cfg) (ha : s.alastAt j = s'.alastAt j)
    (hd : s.decayAt j = s'.decayAt j) (v : Reading) : counter s j v = counter s' j v := by
  rw [counter_eq, counter_eq, hc, ha, hd]

/-- The level `DSTEP i` stores and the frames it hands over are determined by channel `i` alone (R16). -/
theorem execDstep_congr {s s' t t' : State} {i : Byte} (hw : s.wf) (hw' : s'.wf)
    (hl : s.dlastAt i = s'.dlastAt i) (hx : s.dIn i = s'.dIn i)
    (h : execDstep i s = .next t) (h' : execDstep i s' = .next t') :
    t.dlastAt i = t'.dlastAt i ∧ t.out.drop s.out.length = t'.out.drop s'.out.length := by
  constructor
  · rw [execDstep_own hw h, execDstep_own hw' h', hx]
  · rw [execDstep_out h, execDstep_out h', List.drop_left, List.drop_left, hl, hx]

/-- The registers `ASTEP j` stores and the frames it hands over are determined by the configuration and
channel `j` alone (R16). -/
theorem execAstep_congr {s s' t t' : State} {j : Byte} (hw : s.wf) (hw' : s'.wf) (hc : s.cfg = s'.cfg)
    (ha : s.alastAt j = s'.alastAt j) (hd : s.decayAt j = s'.decayAt j) (hv : s.aIn j = s'.aIn j)
    (h : execAstep j s = .next t) (h' : execAstep j s' = .next t') :
    t.alastAt j = t'.alastAt j ∧ t.decayAt j = t'.decayAt j ∧
      t.out.drop s.out.length = t'.out.drop s'.out.length := by
  obtain ⟨hta, htd, hto⟩ := execAstep_own hw h
  obtain ⟨hta', htd', hto'⟩ := execAstep_own hw' h'
  have hcnt := counter_congr hc ha hd (s'.aIn j)
  refine ⟨?_, ?_, ?_⟩
  · rw [hta, hta', hv, reference_congr hc ha]
  · rw [htd, htd', hv, hcnt]
  · rw [hto, hto', List.drop_left, List.drop_left, hv, hcnt, hc]

/-! ### The obligation -/

/-- Settles O34: the write side from the frame of each channel step, the read side from what its stored
values and its frames are determined by. -/
theorem channelsAreIndependent : Obligations.ChannelsAreIndependent := by
  refine ⟨fun s t i h => ⟨fun k hk => ?_, ?_⟩, fun s t j h => ⟨?_, fun k hk => ?_⟩,
    fun s s' t t' i hw hw' _ hl hx h h' => ?_, fun s s' t t' j hw hw' hc ha hd hv h h' => ?_⟩
  · exact execDstep_other hk h
  · exact execDstep_analog_frame h
  · exact execAstep_dlast h
  · exact execAstep_other hk h
  · exact execDstep_congr hw hw' hl hx h h'
  · exact execAstep_congr hw hw' hc ha hd hv h h'

end Sys2Proof.Machine
end

section
/-! PROOFS. The sequencer is closed to data: where a step leaves `seq` is a function of the channel counts,
the position and the two events (R46). -/

namespace Sys2Proof.Machine

/-! ### The position after a step -/

/-- Where a step moves `seq` from position `q`, under the events `reset` and `tick` (R106, R108, R109, R141).
No register and no input is an argument, and of `c` only `N` and `M` count (`nextSeq_congr`). -/
def nextSeq (c : Config) (q : Seq) (reset tick : Bool) : Seq :=
  if reset then .wait0
  else
    match q.phase with
    | .wait => if tick then afterWait c else q
    | .dig => afterDig c q.idx
    | .ana => afterAna c q.idx

/-- Of the parameters, `nextSeq` depends on the channel counts only (R46). -/
theorem nextSeq_congr {c c' : Config} (hN : c.N = c'.N) (hM : c.M = c'.M) (q : Seq) (reset tick : Bool) :
    nextSeq c q reset tick = nextSeq c' q reset tick := by
  simp only [nextSeq, afterWait, afterDig, afterAna, hN, hM]

/-- The wait moves `seq` on `tick` only (R106). -/
theorem State.await_seq (s : State) : s.await.seq = if s.tickNow then afterWait s.cfg else s.seq := by
  unfold State.await
  split <;> rfl

/-- `RESET` takes `seq` to `(WAIT, 0)` (R140). -/
theorem execReset_seq {s t : State} (h : execReset s = .next t) : t.seq = .wait0 := by
  cases h
  rfl

/-- `DSTEP` writes no parameter (R20). -/
theorem execDstep_cfg {s t : State} {i : Byte} (h : execDstep i s = .next t) : t.cfg = s.cfg := by
  obtain ⟨-, rfl⟩ := execDstep_next h
  simp

/-- `ASTEP` writes no parameter (R20). -/
theorem execAstep_cfg {s t : State} {j : Byte} (h : execAstep j s = .next t) : t.cfg = s.cfg := by
  obtain ⟨-, rfl⟩ := execAstep_next h
  simp

/-- Every step moves `seq` as `nextSeq` says (R106, R108, R109, R141). -/
theorem step_seq {s t : State} (h : step s = .next t) :
    t.seq = nextSeq s.cfg s.seq s.resetNow s.tickNow := by
  obtain ⟨hr, hp, rfl⟩ | ⟨hr, u, hu, rfl⟩ | ⟨hr, hp, u, hu, rfl⟩ | ⟨hr, hp, u, hu, rfl⟩ := step_cases h
  · simp [nextSeq, hr, hp, State.await_seq]
  · simp [nextSeq, hr, execReset_seq hu]
  · simp [nextSeq, hr, hp, execDstep_cfg hu]
  · simp [nextSeq, hr, hp, execAstep_cfg hu]

/-! ### The obligation -/

/-- Settles O12: both steps move `seq` as `nextSeq` says, which reads only what the two blocks share. -/
theorem theNextOperationDoesNotDependOnData : Obligations.TheNextOperationDoesNotDependOnData := by
  intro s s' t t' hN hM hq hr ht h h'
  calc t.seq
      = nextSeq s.cfg s.seq s.resetNow s.tickNow := step_seq h
    _ = nextSeq s'.cfg s.seq s.resetNow s.tickNow := nextSeq_congr hN hM ..
    _ = nextSeq s'.cfg s'.seq s'.resetNow s'.tickNow := by rw [hq, hr, ht]
    _ = t'.seq := (step_seq h').symm

end Sys2Proof.Machine
end

section
/-! PROOFS. The digital edge detector: what one `DSTEP` does, and the 'B' frames of a whole cycle, in
particular of the first one after reset (R70, R73). -/

namespace Sys2Proof.Machine

/-! ### One digital step -/

/-- Settles O20: on a channel that exists, `DSTEP` is the effect of R70 and the using up of the instant. -/
theorem digitalStepReportsExactlyTheEdges : Obligations.DigitalStepReportsExactlyTheEdges := by
  intro s i hi
  have hx : exec (.dstep i) s = .next (s.digital i (s.dIn i)).nextInstant := execDstep_of_lt hi
  rw [hx, State.digital_eq]
  constructor
  · intro hedge
    rw [if_pos hedge]
    rfl
  · intro hsteady
    rw [if_neg (not_not.mpr hsteady)]
    rfl

/-! ### The 'B' frames of one cycle -/

/-- The 'B' frames of a scan of the first `n` digital channels from `s`: one for each channel whose level, at
the instant of its own read, differs from the one noted (R70, R107). -/
def State.edgeFrames (s : State) (n : Nat) : List Frame :=
  (List.range n).flatMap fun k =>
    let i := BitVec.ofNat 8 k
    let x := (s.ahead k).dIn i
    if x ≠ s.dlastAt i then [buttonFrame i x] else []

/-- The frames of the scan are those of the channels that have an edge. -/
theorem State.mem_edgeFrames {s : State} {n : Nat} (hn : n ≤ 256) {f : Frame} :
    f ∈ s.edgeFrames n ↔ ∃ i : Byte, i.toNat < n ∧ (s.ahead i.toNat).dIn i ≠ s.dlastAt i ∧
      f = buttonFrame i ((s.ahead i.toNat).dIn i) := by
  simp only [State.edgeFrames, List.mem_flatMap, List.mem_range, List.mem_ite_nil_right, List.mem_singleton]
  constructor
  · rintro ⟨k, hk, hf⟩
    have hki : (BitVec.ofNat 8 k).toNat = k := toNat_ofNat8 (by omega)
    exact ⟨BitVec.ofNat 8 k, by omega, by rwa [hki]⟩
  · rintro ⟨i, hi, hf⟩
    have hik : BitVec.ofNat 8 i.toNat = i := BitVec.ofNat_toNat ..
    exact ⟨i.toNat, hi, by rwa [hik]⟩

/-- A frame of channel `i` comes from an edge of channel `i`. -/
theorem State.mem_edgeFrames_of_index {s : State} {n : Nat} (hn : n ≤ 256) {f : Frame}
    (hi : f.index.toNat < n) : f ∈ s.edgeFrames n ↔
      (s.ahead f.index.toNat).dIn f.index ≠ s.dlastAt f.index ∧
        f = buttonFrame f.index ((s.ahead f.index.toNat).dIn f.index) := by
  rw [State.mem_edgeFrames hn]
  constructor
  · rintro ⟨i, -, hedge, rfl⟩
    exact ⟨hedge, rfl⟩
  · exact fun h => ⟨f.index, hi, h⟩

/-- From a low level noted, the one possible edge is to high. -/
theorem State.mem_edgeFrames_of_low {s : State} {n : Nat} (hn : n ≤ 256) {f : Frame}
    (hi : f.index.toNat < n) (hlow : s.dlastAt f.index = false) : f ∈ s.edgeFrames n ↔
      f = buttonFrame f.index true ∧ (s.ahead f.index.toNat).dIn f.index = true := by
  rw [State.mem_edgeFrames_of_index hn hi, hlow, ne_eq, Bool.not_eq_false, and_comm]
  exact and_congr_left fun hhigh => by rw [hhigh]

/-- The command of a report is 'P' under either split (R56, R57). -/
theorem potFrame_command (sp : Split) (j : Byte) (v : Nat) : (potFrame sp j v).command = 0x50 := by
  cases sp <;> rfl

/-- An `ASTEP` hands over 'P' frames only (R80). -/
theorem execAstep_out {s t : State} {j : Byte} (h : execAstep j s = .next t) :
    ∃ fs, t.out = s.out ++ fs ∧ ∀ f ∈ fs, f.command = 0x50 := by
  obtain ⟨-, rfl⟩ := execAstep_next h
  refine ⟨_, by rw [State.nextInstant_out, State.analog_out], fun f hf => ?_⟩
  obtain ⟨-, hf⟩ := List.mem_ite_nil_right.mp hf
  rw [List.mem_singleton.mp hf]
  exact potFrame_command ..

/-- An analog scan leaves the 'B' frames handed over as they are (R107). -/
theorem scan_execAstep_mem_out {ids : List Byte} {s t : State} (h : scan execAstep ids s = .next t)
    {f : Frame} (hf : f.command = 0x42) : f ∈ t.out ↔ f ∈ s.out := by
  refine scan_keeps (fun u => f ∈ u.out ↔ f ∈ s.out) (fun j u v hu hv => ?_) ids s t Iff.rfl h
  obtain ⟨fs, hout, hpot⟩ := execAstep_out hv
  have hnot : f ∉ fs := fun hm => absurd (hf.symm.trans (hpot f hm)) (by decide)
  rw [hout, List.mem_append, or_iff_left hnot, hu]

/-- `POLL` completes in every legal state, and the 'B' frames handed over are then those from before and those
of the edges (R111). -/
theorem execPoll_mem_out {s : State} (hw : s.wf) : ∃ t, execPoll s = .next t ∧
    ∀ f : Frame, f.command = 0x42 → (f ∈ t.out ↔ f ∈ s.out ∨ f ∈ s.edgeFrames s.cfg.N) := by
  obtain ⟨hc, hdl, hal, hdc, -⟩ := hw
  obtain ⟨t, ht, tcfg, -, -, -, talast, tdecay, -, -, -, -, -, tout⟩ :=
    scan_execDstep s hc.1 hdl s.cfg.N le_rfl
  obtain ⟨u, hu, -⟩ := scan_execAstep t (by rw [tcfg]; exact hc.2.1) (by rw [talast, tcfg, hal])
    (by rw [tdecay, tcfg, hdc]) s.cfg.M (by rw [tcfg])
  refine ⟨{ u with timer := 0 }, ?_, fun f hf => ?_⟩
  · rw [execPoll, ht, andThen_next, hu, andThen_next]
  · calc f ∈ u.out
        ↔ f ∈ t.out := scan_execAstep_mem_out hu hf
      _ ↔ f ∈ s.out ∨ f ∈ s.edgeFrames s.cfg.N := by rw [tout, List.mem_append]; rfl

/-! ### The first cycle after reset -/

/-- The state after reset is legal in every environment (R25). -/
theorem State.resetIn_wf {c : Config} (hc : c.wf) (stim : List Instant) (k : Nat) :
    (State.resetIn c stim k).wf := by
  refine ⟨hc, List.length_replicate, List.length_replicate, List.length_replicate, ?_, fun d hd => ?_, ?_⟩
  · refine List.all_eq_true.mpr fun v hv => decide_eq_true ?_
    rw [List.eq_of_mem_replicate hv]
    exact Nat.two_pow_pos _
  · rw [List.eq_of_mem_replicate hd]
    exact Nat.zero_le _
  · simp [State.resetIn, State.resetOf, Seq.legal]

/-- The state after reset has the parameters the block is built with (R5). -/
@[simp] theorem State.resetIn_cfg (c : Config) (stim : List Instant) (k : Nat) :
    (State.resetIn c stim k).cfg = c := rfl

/-- After reset no frame has been handed over (R25). -/
@[simp] theorem State.resetIn_out (c : Config) (stim : List Instant) (k : Nat) :
    (State.resetIn c stim k).out = [] := rfl

/-- After reset every digital channel has noted the seed (R25). -/
theorem State.resetIn_dlastAt {c : Config} {i : Byte} (hi : i.toNat < c.N) (stim : List Instant) (k : Nat) :
    (State.resetIn c stim k).dlastAt i = c.DSEED := by
  simp [State.dlastAt, State.resetIn, State.resetOf, hi]

/-- Settles O23: nothing is handed over yet, so a 'B' frame of channel `i` is one of the cycle's own edge
frames, and every channel starts from the low seed. -/
theorem firstCycleReportsExactlyTheHighChannels : Obligations.FirstCycleReportsExactlyTheHighChannels := by
  intro c stim k hc hseed
  obtain ⟨t, ht, hout⟩ := execPoll_mem_out (State.resetIn_wf hc stim k)
  refine ⟨t, ht, fun i f hi hf hfi => ?_⟩
  subst hfi
  have hlow : (State.resetIn c stim k).dlastAt f.index = false := by rw [State.resetIn_dlastAt hi, hseed]
  calc f ∈ t.out
      ↔ f ∈ (State.resetIn c stim k).edgeFrames c.N := by simpa using hout f hf
    _ ↔ f = buttonFrame f.index true ∧
        ((State.resetIn c stim k).ahead f.index.toNat).dIn f.index = true :=
      State.mem_edgeFrames_of_low hc.1 hi hlow

end Sys2Proof.Machine
end

section
/-! PROOFS. The analog threshold comparator with decay counter: one `ASTEP`, the excursion cycle, and motion
that is sustained over any number of cycles (R80, R81, R82, R84). -/

namespace Sys2Proof.Machine

/-! ### One analog step -/

/-- Performing `ASTEP j` is the analog step of channel `j` (R80). -/
@[simp] theorem exec_astep (j : Byte) : exec (.astep j) = execAstep j := rfl

/-- Settles O25: on a channel that exists, `ASTEP` is the effect of R80 and the using up of the instant. -/
theorem analogStepFollowsTheContract : Obligations.AnalogStepFollowsTheContract := by
  intro s j hj v moved a1 c1
  have href : reference s j v = a1 := reference_eq s j v
  have hcnt : counter s j v = c1 := counter_eq s j v
  have hx : exec (.astep j) s = .next (s.analog j v).nextInstant := execAstep_of_lt hj
  rw [hx, State.analog_eq, href, hcnt]
  constructor
  · intro hact
    rw [if_pos hact, if_pos hact]
    rfl
  · intro hidle
    rw [if_neg hidle, if_neg hidle, List.append_nil]
    rfl

/-- What an excursion cycle leaves in its own channel and in `out`: the counter is loaded before it is tested,
so the old counter does not matter (R81). -/
theorem execAstep_excursion {s t : State} {j : Byte} (hw : s.wf)
    (hexc : s.cfg.THRESHOLD < distance (s.aIn j).toNat (s.alastAt j).toNat) (h : execAstep j s = .next t) :
    t.alastAt j = s.aIn j ∧
      t.decayAt j = (if 1 < s.cfg.IDLE_TIMEOUT then s.cfg.IDLE_TIMEOUT - 1 else s.cfg.IDLE_TIMEOUT) ∧
      t.out = s.out ++
        if 1 < s.cfg.IDLE_TIMEOUT then [potFrame s.cfg.SPLIT j (s.aIn j).toNat] else [] := by
  have hcnt : counter s j (s.aIn j) = s.cfg.IDLE_TIMEOUT := by rw [counter_eq, if_pos hexc]
  have href : reference s j (s.aIn j) = s.aIn j := by rw [reference_eq, if_pos hexc]
  have hown := execAstep_own hw h
  rwa [href, hcnt] at hown

/-- Settles O26: the two clauses are the two outcomes of testing the counter just loaded. -/
theorem excursionCycleEmitsFromAnyCounter : Obligations.ExcursionCycleEmitsFromAnyCounter := by
  intro s t j hw _ hexc h
  obtain ⟨hlast, hdecay, hout⟩ := execAstep_excursion hw hexc h
  refine ⟨hlast, fun hlong => ?_, fun hshort => ?_⟩
  · rw [hout, hdecay, if_pos hlong, if_pos hlong]
    exact ⟨rfl, rfl⟩
  · have hnot : ¬ 1 < s.cfg.IDLE_TIMEOUT := Nat.not_lt.mpr hshort
    rw [hout, hdecay, if_neg hnot, if_neg hnot, List.append_nil]
    exact ⟨rfl, rfl⟩

/-- Settles O27: a changed `out` shows an active cycle, whose frame is of the reading; what becomes of the
reference is the case split of `reference_eq`. -/
theorem reportsCarryTheFreshReading : Obligations.ReportsCarryTheFreshReading := by
  intro s t j hw h hne
  obtain ⟨hlast, -, hout⟩ := execAstep_own hw h
  have hact : 1 < counter s j (s.aIn j) := by
    by_contra hidle
    rw [if_neg hidle, List.append_nil] at hout
    exact hne hout
  rw [if_pos hact] at hout
  rw [reference_eq] at hlast
  refine ⟨hout, fun hexc => ?_, fun hstill => ?_⟩
  · rw [hlast, if_pos hexc]
  · rw [if_neg hstill] at hlast
    exact ⟨hlast, by rw [hlast]; exact Nat.not_lt.mp hstill⟩

/-! ### Repetitions of one analog step -/

/-- What one instruction keeps, its repetition keeps. -/
theorem execTimes_keeps {i : Instr} (P : State → Prop) (hop : ∀ s t, P s → exec i s = .next t → P t) :
    ∀ (n : Nat) (s t : State), P s → execTimes i n s = .next t → P t
  | 0, _, _, hs, h => by cases h; exact hs
  | n + 1, s, t, hs, h => by
    obtain ⟨u, hu, hk⟩ := andThen_eq_next h
    exact execTimes_keeps P hop n u t (hop s u hs hu) hk

/-- Repeating `ASTEP` keeps a state legal. -/
theorem execTimes_astep_keeps_wf {j : Byte} {n : Nat} {s t : State} (hw : s.wf)
    (h : execTimes (.astep j) n s = .next t) : t.wf :=
  execTimes_keeps (i := .astep j) State.wf (fun _ _ => execAstep_keeps_wf) n s t hw h

/-- Repeating `ASTEP` writes no parameter (R20). -/
theorem execTimes_astep_cfg {j : Byte} {n : Nat} {s t : State}
    (h : execTimes (.astep j) n s = .next t) : t.cfg = s.cfg :=
  execTimes_keeps (i := .astep j) (fun u => u.cfg = s.cfg)
    (fun _ _ hs hu => (execAstep_cfg hu).trans hs) n s t rfl h

/-- `ASTEP` uses up one instant: what is read `n` instants after it is what was `n + 1` ahead (R80). -/
theorem execAstep_ahead_aIn {s t : State} {j : Byte} (h : execAstep j s = .next t) (n : Nat) (k : Byte) :
    (t.ahead n).aIn k = (s.ahead (n + 1)).aIn k := by
  obtain ⟨-, rfl⟩ := execAstep_next h
  refine State.aIn_congr (by simp) (by simp) ?_ k
  simp only [State.ahead_drawn, State.nextInstant_drawn, State.analog_drawn]
  omega

/-- `n` repetitions of `ASTEP` use up `n` instants (R80). -/
theorem execTimes_astep_aIn {j : Byte} : ∀ {n : Nat} {s t : State}, execTimes (.astep j) n s = .next t →
    ∀ k : Byte, t.aIn k = (s.ahead n).aIn k
  | 0, _, _, h, _ => by cases h; rfl
  | n + 1, _, _, h, k => by
    obtain ⟨u, hu, hn⟩ := andThen_eq_next h
    exact (execTimes_astep_aIn hn k).trans (execAstep_ahead_aIn hu n k)

/-! ### Sustained motion -/

/-- The reading before the `k`-th from now on of channel `j`; the reference stands before the first (R84). -/
def State.readingBefore (s : State) (j : Byte) (k : Nat) : Reading :=
  if k = 0 then s.alastAt j else (s.ahead (k - 1)).aIn j

@[simp] theorem State.readingBefore_zero (s : State) (j : Byte) : s.readingBefore j 0 = s.alastAt j := rfl

@[simp] theorem State.readingBefore_succ (s : State) (j : Byte) (k : Nat) :
    s.readingBefore j (k + 1) = (s.ahead k).aIn j := rfl

/-- While every reading is an excursion from the one before it, the reference follows the readings; so each
cycle is an excursion cycle, which emits and re-arms the counter (R84). -/
theorem execTimes_astep_of_motion {s : State} {j : Byte} (hw : s.wf) (hj : j.toNat < s.cfg.M)
    (hlong : 1 < s.cfg.IDLE_TIMEOUT) (n : Nat)
    (hmove : ∀ k, k < n → s.cfg.THRESHOLD < distance ((s.ahead k).aIn j).toNat (s.readingBefore j k).toNat) :
    ∃ t, execTimes (.astep j) n s = .next t ∧ t.alastAt j = s.readingBefore j n ∧
      t.out = s.out ++ (List.range n).map (fun k => potFrame s.cfg.SPLIT j ((s.ahead k).aIn j).toNat) ∧
      (n ≠ 0 → t.decayAt j = s.cfg.IDLE_TIMEOUT - 1) := by
  induction n with
  | zero => exact ⟨s, rfl, rfl, by simp, fun h => absurd rfl h⟩
  | succ n ih =>
    obtain ⟨t, ht, hlast, hout, -⟩ := ih fun k hk => hmove k (by omega)
    have hcfg : t.cfg = s.cfg := execTimes_astep_cfg ht
    have hread : t.aIn j = (s.ahead n).aIn j := execTimes_astep_aIn ht j
    have hexc : t.cfg.THRESHOLD < distance (t.aIn j).toNat (t.alastAt j).toNat := by
      rw [hcfg, hread, hlast]
      exact hmove n (Nat.lt_succ_self n)
    have hu : execAstep j t = .next (t.analog j (t.aIn j)).nextInstant := execAstep_of_lt (by rwa [hcfg])
    obtain ⟨hulast, hudecay, huout⟩ := execAstep_excursion (execTimes_astep_keeps_wf hw ht) hexc hu
    rw [hcfg, if_pos hlong] at hudecay huout
    refine ⟨_, ?_, ?_, ?_, fun _ => hudecay⟩
    · rw [execTimes_succ_last, ht, andThen_next, exec_astep, hu]
    · rw [hulast, hread, State.readingBefore_succ]
    · rw [huout, hout, hread, List.range_succ, List.map_append, List.append_assoc]
      rfl

/-- Settles O28, by induction on the number of cycles: the reference is always the reading before. -/
theorem sustainedMotionIsReportedEveryCycle : Obligations.SustainedMotionIsReportedEveryCycle := by
  intro n s j hw hj hlong hmove
  obtain ⟨t, ht, hlast, hout, hdecay⟩ := execTimes_astep_of_motion hw hj hlong n hmove
  refine ⟨t, ht, hout, fun hn => ⟨hdecay hn, ?_⟩⟩
  rw [hlast, State.readingBefore, if_neg hn]

end Sys2Proof.Machine
end

section
/-! PROOFS. The fixed-frame encoder: the instruction `FRAME`, the order in which a checksum is added, and the
byte stream (R37, R50, R61, R95, R96, R100). -/

namespace Sys2Proof

/-! ### The checksum -/

/-- The checksum is a function of the wide sum over the list of the bytes, which does not see their order
(R96). -/
theorem checksum_eq_ofNat_sum (c i d1 d2 : Byte) :
    checksum c i d1 d2 = BitVec.ofNat 8 (([c, i, d1, d2].map BitVec.toNat).sum % 256) := by
  simp [checksum, Nat.add_assoc]

/-- A permutation of the four bytes has the same checksum (R96). -/
theorem checksum_eq_of_perm {a b e f c i d1 d2 : Byte} (h : [a, b, e, f].Perm [c, i, d1, d2]) :
    checksum a b e f = checksum c i d1 d2 := by
  rw [checksum_eq_ofNat_sum, checksum_eq_ofNat_sum, (h.map BitVec.toNat).sum_nat]

/-- The checksum as a number is the wide sum modulo 256 (R59). -/
theorem checksum_toNat (c i d1 d2 : Byte) :
    (checksum c i d1 d2).toNat = (c.toNat + i.toNat + d1.toNat + d2.toNat) % 256 :=
  (mkFrame_sums c i d1 d2).symm

/-- Settles O37: the sum from the other end is the checksum of the reversed bytes, a permutation. -/
theorem checksumMayBeAddedInAnyOrder : Obligations.ChecksumMayBeAddedInAnyOrder := by
  intro c i d1 d2
  have hrev : [c, i, d1, d2].Perm [d2, d1, i, c] := (List.reverse_perm [c, i, d1, d2]).symm
  exact ⟨checksum_eq_sum .., (checksum_eq_of_perm hrev).trans (checksum_eq_sum ..), checksum_toNat ..,
    fun _ _ _ _ => checksum_eq_of_perm⟩

/-! ### The bytes of frames -/

/-- A frame is five bytes (R61). -/
@[simp] theorem Frame.bytes_length (f : Frame) : f.bytes.length = 5 := rfl

/-- A receiver at a frame boundary takes the frame whose bytes stand there and goes on after them (R62). -/
@[simp] theorem framesIn_bytes_append (f : Frame) (bs : List Byte) :
    framesIn (f.bytes ++ bs) = (framesIn bs).map (f :: ·) := rfl

/-- A receiver recovers the frames from their bytes alone (R61, R100). -/
theorem framesIn_flatMap_bytes (fs : List Frame) : framesIn (fs.flatMap Frame.bytes) = some fs := by
  induction fs with
  | nil => rfl
  | cons f fs ih => rw [List.flatMap_cons, framesIn_bytes_append, ih, Option.map_some]

end Sys2Proof

namespace Sys2Proof.Machine

/-! ### The instruction `FRAME` -/

@[simp] theorem exec_frame (c i d1 d2 : Byte) : exec (.frame c i d1 d2) = execFrame c i d1 d2 := rfl

/-- Settles O35: `FRAME` emits the frame it builds, and to emit is to append to `out`. -/
theorem frameAppendsTheSummedFrame : Obligations.FrameAppendsTheSummedFrame := by
  intro s c i d1 d2
  rw [exec_frame, execFrame, State.emitFrame, State.emit, mkFrame, checksum]

/-! ### The stream -/

/-- The stream is the bytes of the frames handed over (R100). -/
theorem State.stream_eq (s : State) : s.stream = s.sent.flatMap Frame.bytes := rfl

/-- The stream has five bytes per frame handed over, and no more (R61, R100). -/
theorem State.stream_length (s : State) : s.stream.length = 5 * s.sent.length := by
  rw [State.stream_eq, List.length_flatMap]
  simp only [Frame.bytes_length, List.map_const', List.sum_replicate, smul_eq_mul]
  exact Nat.mul_comm ..

/-- To emit a frame puts its bytes at the end of the stream (R33, R37). -/
theorem State.emit_stream (s : State) (f : Frame) : (s.emit f).stream = s.stream ++ f.bytes := by
  rw [State.stream_eq, State.sent, State.emit_past, State.emit_out, ← List.append_assoc, List.flatMap_append,
    List.flatMap_singleton, ← State.stream_eq]

/-- Settles O42: the length, what a receiver recovers, and what one `emit` adds. -/
theorem theStreamHoldsTheFramesAndNothingElse : Obligations.TheStreamHoldsTheFramesAndNothingElse :=
  ⟨State.stream_length, fun s => framesIn_flatMap_bytes s.sent, State.emit_stream⟩

end Sys2Proof.Machine
end

section
/-! PROOFS. The step has no fault and no refusal: `RESET` is total, the wait runs no operation, and a channel
step that a legal `seq` selects is one of a channel that exists (R18, R106, R120, R124). -/

namespace Sys2Proof.Machine

/-! ### The selected operation, and the step by its selection -/

/-- On a reset event `RESET` is selected, in every phase (R124). -/
theorem State.selected_of_reset {s : State} (hr : s.resetNow = true) : s.selected = some .reset := by
  simp [State.selected, hr]

/-- The wait selects no operation (R106). -/
theorem State.selected_of_wait {s : State} (hr : s.resetNow = false) (hp : s.seq.phase = .wait) :
    s.selected = none := by
  simp [State.selected, hr, hp]

/-- In the digital scan the channel step of `seq` is selected (R64, R108). -/
theorem State.selected_of_dig {s : State} (hr : s.resetNow = false) (hp : s.seq.phase = .dig) :
    s.selected = some (.dstep s.seq.idx) := by
  simp [State.selected, hr, hp]

/-- In the analog scan the channel step of `seq` is selected (R64, R109). -/
theorem State.selected_of_ana {s : State} (hr : s.resetNow = false) (hp : s.seq.phase = .ana) :
    s.selected = some (.astep s.seq.idx) := by
  simp [State.selected, hr, hp]

/-- Where no operation is selected the step awaits `tick` (R106). -/
theorem step_of_selected_none {s : State} (hi : s.selected = none) : step s = .next s.await := by
  rw [step, hi]

/-- Where the selected operation completes, the step is the move of `seq` after it (R108, R109). -/
theorem step_of_selected_some {s t : State} {i : Instr} (hi : s.selected = some i)
    (hx : exec i s = .next t) : step s = .next (t.advance i) := by
  rw [step, hi]
  simp only [hx, andThen_next]

/-! ### The obligation -/

/-- Settles O8, by the selected operation: `RESET` and the wait have no condition, and the legality of `seq`
(R18) is what `DSTEP` and `ASTEP` ask of their index. -/
theorem stepNeverFaultsOrRefuses : Obligations.StepNeverFaultsOrRefuses := by
  intro s hw
  obtain ⟨-, -, -, -, -, -, -, hdig, hana⟩ := hw
  cases hr : s.resetNow with
  | true => exact ⟨_, step_of_selected_some (State.selected_of_reset hr) rfl⟩
  | false =>
    cases hp : s.seq.phase with
    | wait => exact ⟨_, step_of_selected_none (State.selected_of_wait hr hp)⟩
    | dig =>
      exact ⟨_, step_of_selected_some (State.selected_of_dig hr hp) (execDstep_of_lt (hdig hp))⟩
    | ana =>
      exact ⟨_, step_of_selected_some (State.selected_of_ana hr hp) (execAstep_of_lt (hana hp))⟩

end Sys2Proof.Machine
end

section
/-! PROOFS. What every instruction and every step keeps: the parameters, the position, the instants, the legality
of a state (R10 to R20, R113). -/

namespace Sys2Proof.Machine

/-! ### What an instruction keeps -/

/-- `POLL` keeps what its channel steps and the restart of the delay keep (R111). -/
theorem execPoll_keeps {P : State → Prop}
    (hdig : ∀ k s t, P s → execDstep k s = .next t → P t)
    (hana : ∀ k s t, P s → execAstep k s = .next t → P t)
    (htimer : ∀ s : State, P s → P { s with timer := 0 }) {s t : State} (hs : P s)
    (h : execPoll s = .next t) : P t := by
  obtain ⟨u, hu, h⟩ := andThen_eq_next h
  obtain ⟨v, hv, h⟩ := andThen_eq_next h
  cases h
  exact htimer v (scan_keeps P hana _ u v (scan_keeps P hdig _ s u hs hu) hv)

/-- An instruction keeps what the building of a frame, the two channel steps, the restart of the delay and, where
it is `RESET`, the reset keep. -/
theorem exec_keeps {P : State → Prop} {i : Instr}
    (hframe : ∀ c k d1 d2 s, P s → P (s.emitFrame c k d1 d2))
    (hdig : ∀ k s t, P s → execDstep k s = .next t → P t)
    (hana : ∀ k s t, P s → execAstep k s = .next t → P t)
    (htimer : ∀ s : State, P s → P { s with timer := 0 })
    (hreset : i = .reset → ∀ s t, P s → execReset s = .next t → P t) {s t : State} (hs : P s)
    (h : exec i s = .next t) : P t := by
  cases i with
  | frameB k level => cases h; exact hframe _ _ _ _ s hs
  | frameP j v => cases h; exact hframe _ _ _ _ s hs
  | dstep k => exact hdig k s t hs h
  | astep j => exact hana j s t hs h
  | frame c k d1 d2 => cases h; exact hframe c k d1 d2 s hs
  | poll => exact execPoll_keeps hdig hana htimer hs h
  | reset => exact hreset rfl s t hs h

/-- `RESET` writes no parameter (R20). -/
theorem execReset_cfg {s t : State} (h : execReset s = .next t) : t.cfg = s.cfg := by
  cases h
  rfl

/-- No instruction writes a parameter (R20). -/
theorem exec_cfg {i : Instr} {s t : State} (h : exec i s = .next t) : t.cfg = s.cfg :=
  exec_keeps (P := fun u => u.cfg = s.cfg) (fun _ _ _ _ _ hu => hu)
    (fun _ _ _ hu hx => (execDstep_cfg hx).trans hu) (fun _ _ _ hu hx => (execAstep_cfg hx).trans hu)
    (fun _ hu => hu) (fun _ _ _ hu hx => (execReset_cfg hx).trans hu) rfl h

/-- `DSTEP` does not move `seq`: the sequencer does (R113). -/
theorem execDstep_seq {s t : State} {i : Byte} (h : execDstep i s = .next t) : t.seq = s.seq := by
  obtain ⟨-, rfl⟩ := execDstep_next h
  simp

/-- `ASTEP` does not move `seq`: the sequencer does (R113). -/
theorem execAstep_seq {s t : State} {j : Byte} (h : execAstep j s = .next t) : t.seq = s.seq := by
  obtain ⟨-, rfl⟩ := execAstep_next h
  simp

/-- Settles O13: neither building a frame nor a channel step nor the restart of the delay moves `seq`. -/
theorem noOtherInstructionMovesSeq : Obligations.NoOtherInstructionMovesSeq := by
  intro i s t hi h
  exact exec_keeps (P := fun u => u.seq = s.seq) (fun _ _ _ _ _ hu => hu)
    (fun _ _ _ hu hx => (execDstep_seq hx).trans hu) (fun _ _ _ hu hx => (execAstep_seq hx).trans hu)
    (fun _ hu => hu) (fun hr => absurd hr hi) rfl h

/-! ### The wait, the move of `seq`, and the instant -/

@[simp] theorem State.await_cfg (s : State) : s.await.cfg = s.cfg := by unfold State.await; split <;> rfl
@[simp] theorem State.await_dlast (s : State) : s.await.dlast = s.dlast := by unfold State.await; split <;> rfl
@[simp] theorem State.await_alast (s : State) : s.await.alast = s.alast := by unfold State.await; split <;> rfl
@[simp] theorem State.await_decay (s : State) : s.await.decay = s.decay := by unfold State.await; split <;> rfl
@[simp] theorem State.await_out (s : State) : s.await.out = s.out := by unfold State.await; split <;> rfl
@[simp] theorem State.await_past (s : State) : s.await.past = s.past := by unfold State.await; split <;> rfl
@[simp] theorem State.await_stim (s : State) : s.await.stim = s.stim.tail := by
  unfold State.await; split <;> rfl
@[simp] theorem State.await_drawn (s : State) : s.await.drawn = s.drawn + 1 := by
  unfold State.await; split <;> rfl

/-- No step writes a parameter (R20). -/
theorem step_cfg {s t : State} (h : step s = .next t) : t.cfg = s.cfg := by
  obtain ⟨-, -, rfl⟩ | ⟨-, u, hu, rfl⟩ | ⟨-, -, u, hu, rfl⟩ | ⟨-, -, u, hu, rfl⟩ := step_cases h
  · exact State.await_cfg s
  · exact (execReset_cfg hu :)
  · exact (execDstep_cfg hu :)
  · exact (execAstep_cfg hu :)

/-- Settles O9: an instruction writes no parameter, and neither the wait nor a move of `seq` does. -/
theorem noInstructionWritesAParameter : Obligations.NoInstructionWritesAParameter :=
  ⟨fun _ _ _ => exec_cfg, fun _ _ => step_cfg⟩

/-- `DSTEP` uses up one instant (R70). -/
theorem execDstep_instant {s t : State} {i : Byte} (h : execDstep i s = .next t) :
    t.stim = s.stim.tail ∧ t.drawn = s.drawn + 1 := by
  obtain ⟨-, rfl⟩ := execDstep_next h
  simp

/-- `ASTEP` uses up one instant (R80). -/
theorem execAstep_instant {s t : State} {j : Byte} (h : execAstep j s = .next t) :
    t.stim = s.stim.tail ∧ t.drawn = s.drawn + 1 := by
  obtain ⟨-, rfl⟩ := execAstep_next h
  simp

/-- Settles O14: the wait and the channel steps use up the instant themselves; after `RESET`, which reads
nothing, the sequencer does. -/
theorem everyStepUsesUpOneInstant : Obligations.EveryStepUsesUpOneInstant := by
  intro s t h
  obtain ⟨-, -, rfl⟩ | ⟨-, u, hu, rfl⟩ | ⟨-, -, u, hu, rfl⟩ | ⟨-, -, u, hu, rfl⟩ := step_cases h
  · exact ⟨State.await_stim s, State.await_drawn s⟩
  · cases hu
    exact ⟨rfl, rfl⟩
  · exact (execDstep_instant hu :)
  · exact (execAstep_instant hu :)

/-! ### Legal states -/

/-- The legality of a state is that of its registers and that of its position. -/
theorem State.wf_of_registers {s t : State} (hs : s.wf) (hc : t.cfg = s.cfg) (hd : t.dlast = s.dlast)
    (ha : t.alast = s.alast) (hy : t.decay = s.decay) (hq : t.seq.legal t.cfg) : t.wf := by
  obtain ⟨hcfg, hdl, hal, hdc, hread, hcount, -⟩ := hs
  refine ⟨?_, ?_, ?_, ?_, ?_, ?_, hq⟩
  all_goals rw [hc]
  · exact hcfg
  · rw [hd, hdl]
  · rw [ha, hal]
  · rw [hy, hdc]
  · rwa [ha]
  · rwa [hy]

/-- The reset value of the analog references has `W` bits. -/
theorem replicate_zero_readings (n w : Nat) :
    ((List.replicate n (0 : Reading)).all fun v => v.toNat < 2 ^ w) = true := by
  refine List.all_eq_true.mpr fun v hv => decide_eq_true ?_
  rw [List.eq_of_mem_replicate hv]
  exact Nat.two_pow_pos _

/-- `RESET` leaves a legal state whatever the registers were, if the configuration is one R5 admits (R25). -/
theorem execReset_wf {s t : State} (hc : s.cfg.wf) (h : execReset s = .next t) : t.wf := by
  cases h
  refine ⟨hc, List.length_replicate, List.length_replicate, List.length_replicate,
    replicate_zero_readings _ _, fun d hd => ?_, by simp [Seq.legal]⟩
  rw [List.eq_of_mem_replicate hd]
  exact Nat.zero_le _

/-- Every position a step moves to from a legal one is legal (R18). -/
theorem nextSeq_legal {c : Config} (hc : c.wf) {q : Seq} (hq : q.legal c) (reset tick : Bool) :
    (nextSeq c q reset tick).legal c := by
  unfold nextSeq
  split
  · simp [Seq.legal]
  · split
    · split
      · exact afterWait_legal c
      · exact hq
    · exact afterDig_legal hc q.idx
    · exact afterAna_legal hc q.idx

/-- Every step from a legal state ends in a legal state (R10, R13, R17, R18). -/
theorem step_keeps_wf {s t : State} (hs : s.wf) (h : step s = .next t) : t.wf := by
  have ⟨hc, _, _, _, _, _, hpos⟩ := hs
  have hq : t.seq.legal t.cfg := by
    rw [step_seq h, step_cfg h]
    exact nextSeq_legal hc hpos _ _
  obtain ⟨-, -, rfl⟩ | ⟨-, u, hu, rfl⟩ | ⟨-, -, u, hu, rfl⟩ | ⟨-, -, u, hu, rfl⟩ := step_cases h
  · exact State.wf_of_registers hs (by simp) (by simp) (by simp) (by simp) hq
  · exact State.wf_of_registers (execReset_wf hc hu) rfl rfl rfl rfl hq
  · exact State.wf_of_registers (execDstep_keeps_wf hs hu) rfl rfl rfl rfl hq
  · exact State.wf_of_registers (execAstep_keeps_wf hs hu) rfl rfl rfl rfl hq

/-- Settles O7: the registers by the kind of step, the position by `nextSeq`. -/
theorem stepKeepsStatesLegal : Obligations.StepKeepsStatesLegal :=
  fun _ _ hs h => ⟨step_keeps_wf hs h, step_cfg h⟩

/-! ### Counters at 0 -/

/-- The counter after an `ASTEP` is 0 only if the counter tested was (R80, R88). -/
theorem counter_eq_zero_of_decayAt {s t : State} {j : Byte} (hw : s.wf) (h : execAstep j s = .next t)
    (hz : t.decayAt j = 0) : counter s j (s.aIn j) = 0 := by
  obtain ⟨-, hdecay, -⟩ := execAstep_own hw h
  rw [hz] at hdecay
  split at hdecay <;> omega

/-- `ASTEP` of any channel keeps it that a counter at 0 has the reference 0, when an excursion loads a counter
above 0 (R15). -/
theorem execAstep_keeps_zero {s t : State} {j k : Byte} (hw : s.wf) (hlong : 1 ≤ s.cfg.IDLE_TIMEOUT)
    (hs : s.decayAt k = 0 → s.alastAt k = 0) (h : execAstep j s = .next t) (hz : t.decayAt k = 0) :
    t.alastAt k = 0 := by
  by_cases hkj : k = j
  · subst hkj
    have hcnt := counter_eq_zero_of_decayAt hw h hz
    rw [(execAstep_own hw h).1, reference_eq]
    rw [counter_eq] at hcnt
    split at hcnt
    · omega
    · rw [if_neg ‹_›]
      exact hs hcnt
  · obtain ⟨hlast, hdecay⟩ := execAstep_other hkj h
    rw [hlast]
    exact hs (by rw [← hdecay, hz])

/-- An array filled with the default reads as the default, within its size and beyond. -/
theorem getD_replicate_default {α : Type} (n m : Nat) (a : α) : (List.replicate n a).getD m a = a := by
  rw [List.getD_eq_getElem?_getD, List.getElem?_replicate]
  split <;> rfl

/-- `RESET` makes every reference 0 (R25, D3). -/
theorem execReset_alastAt {s t : State} (h : execReset s = .next t) (j : Byte) : t.alastAt j = 0 := by
  cases h
  exact getD_replicate_default ..

/-- Settles O32: only `ASTEP` and `RESET` write a counter or a reference. -/
theorem stepKeepsZeroCountersUntouched : Obligations.StepKeepsZeroCountersUntouched := by
  intro s t hw hlong hs h k hk hz
  rw [step_cfg h] at hk
  obtain ⟨-, -, rfl⟩ | ⟨-, u, hu, rfl⟩ | ⟨-, -, u, hu, rfl⟩ | ⟨-, -, u, hu, rfl⟩ := step_cases h
  · simp only [State.alastAt, State.decayAt, State.await_alast, State.await_decay] at hz ⊢
    exact hs k hk hz
  · exact execReset_alastAt hu k
  · obtain ⟨halast, hdecay⟩ := execDstep_analog_frame hu
    simp only [State.alastAt, State.decayAt, State.moveTo_alast, State.moveTo_decay, halast, hdecay] at hz ⊢
    exact hs k hk hz
  · exact (execAstep_keeps_zero hw hlong (hs k hk) hu hz :)

end Sys2Proof.Machine
end

section
/-! PROOFS. The frames handed over: at most one per step, each one the block produces, and the record of
reported levels they make up (R12, R60, R74, R75, R90, R99, R101). -/

namespace Sys2Proof

/-! ### The two kinds of frames -/

@[simp] theorem summed_sums (c i d1 d2 : Byte) : (summed c i d1 d2).sums := by
  rw [← mkFrame_eq_summed]
  exact mkFrame_sums c i d1 d2

/-- A 'B' frame satisfies the checksum equation (R101). -/
theorem buttonFrame_sums (i : Byte) (x : Bool) : (buttonFrame i x).sums := summed_sums ..

/-- A 'P' frame satisfies the checksum equation (R101). -/
theorem potFrame_sums (sp : Split) (j : Byte) (v : Nat) : (potFrame sp j v).sums := by
  cases sp <;> exact summed_sums ..

/-- A remainder and a quotient as bytes carry the number they come from (R58). -/
theorem toNat_mod_add_mul_div {v b : Nat} (hb : 0 < b) (hmod : b ≤ 256) (hdiv : v < b * 256) :
    (BitVec.ofNat 8 (v % b)).toNat + b * (BitVec.ofNat 8 (v / b)).toNat = v := by
  have hm : v % b < 256 := (Nat.mod_lt v hb).trans_le hmod
  have hd : v / b < 256 := Nat.div_lt_of_lt_mul hdiv
  rw [Machine.toNat_ofNat8 hm, Machine.toNat_ofNat8 hd, Nat.mod_add_div]

/-- The data bytes of a 'P' frame carry the reading, under either split (R57, R58). -/
theorem potFrame_carried (sp : Split) (j : Byte) (v : Reading) :
    carried sp (potFrame sp j v.toNat).data1 (potFrame sp j v.toNat).data2 = v.toNat := by
  have := v.isLt
  cases sp <;> exact toNat_mod_add_mul_div (by omega) (by omega) (by omega)

/-- The low four bits of a number as a byte are a nibble (R56). -/
theorem toNat_mod_sixteen_le (v : Nat) : (BitVec.ofNat 8 (v % 16)).toNat ≤ 0x0F := by
  have hmod : v % 16 < 16 := Nat.mod_lt v (by decide)
  rw [Machine.toNat_ofNat8 (by omega)]
  omega

/-- The 'B' frame of a channel that exists is one the block produces (R60). -/
theorem buttonFrame_producible {c : Config} {i : Byte} (hi : i.toNat < c.N) (x : Bool) :
    (buttonFrame i x).producible c := by
  have hlevel : (buttonFrame i x).data1.toNat ≤ 1 := by cases x <;> simp [buttonFrame, summed]
  exact ⟨buttonFrame_sums i x, .inl ⟨rfl, hi, hlevel, rfl⟩⟩

/-- The index of a 'P' frame is that of its channel, under either split (R56, R57). -/
theorem potFrame_index (sp : Split) (j : Byte) (v : Nat) : (potFrame sp j v).index = j := by
  cases sp <;> rfl

/-- The 'P' frame of a `W`-bit reading of a channel that exists is one the block produces (R60). -/
theorem potFrame_producible {c : Config} {j : Byte} {v : Reading} (hj : j.toNat < c.M)
    (hv : v.toNat < 2 ^ c.W) : (potFrame c.SPLIT j v.toNat).producible c := by
  refine ⟨potFrame_sums .., .inr ⟨Machine.potFrame_command .., by rwa [potFrame_index], fun hsplit => ?_, ?_⟩⟩
  · rw [hsplit]
    exact toNat_mod_sixteen_le v.toNat
  · rwa [potFrame_carried]

/-! ### The record of reported levels -/

@[simp] theorem levelsOf_append (i : Byte) (fs gs : List Frame) :
    levelsOf i (fs ++ gs) = levelsOf i fs ++ levelsOf i gs := List.filterMap_append

/-- A 'B' frame reports its level, for its own channel (R12, R53). -/
theorem levelsOf_buttonFrame (i k : Byte) (x : Bool) :
    levelsOf k [buttonFrame i x] = if i = k then [x] else [] := by
  by_cases h : i = k <;> cases x <;> simp [levelsOf, buttonFrame, summed, h]

/-- 'P' frames report no level (R12). -/
theorem levelsOf_of_pot {fs : List Frame} (h : ∀ f ∈ fs, f.command = 0x50) (i : Byte) : levelsOf i fs = [] := by
  refine List.filterMap_eq_nil_iff.mpr fun f hf => if_neg ?_
  rw [h f hf]
  exact fun hc => absurd hc.1 (by decide)

/-- One level more alternates when it is the opposite of the last (R75). -/
theorem alternates_concat (x : Bool) : ∀ (seed : Bool) (ls : List Bool),
    alternates seed (ls ++ [x]) = (alternates seed ls && (x == !ls.getLastD seed))
  | seed, [] => by simp [alternates]
  | seed, y :: ls => by
    simp only [List.cons_append, alternates, alternates_concat x y ls, List.getLastD_cons, Bool.and_assoc]

/-- `last` is the level last reported, or the seed, and the levels reported alternate from the seed: what
`State.tells` says of one channel (R12, R75). -/
def Recorded (seed last : Bool) (ls : List Bool) : Prop :=
  last = ls.getLastD seed ∧ alternates seed ls = true

/-- An edge that is noted and reported keeps the record (R12, R75). -/
theorem Recorded.edge {seed last x : Bool} {ls : List Bool} (h : Recorded seed last ls) (hx : x ≠ last) :
    Recorded seed x (ls ++ [x]) := by
  obtain ⟨hlast, halt⟩ := h
  have hopposite : x = !last := Bool.eq_not.mpr hx
  refine ⟨by simp, ?_⟩
  rw [alternates_concat, halt, ← hlast, hopposite]
  simp

end Sys2Proof

namespace Sys2Proof.Machine

/-! ### What one step hands over -/

/-- `t` has handed over what `s` had and at most one frame more, one the block produces (R60, R90). -/
def State.HandsOver (s t : State) : Prop :=
  ∃ fs : List Frame, t.sent = s.sent ++ fs ∧ fs.length ≤ 1 ∧ ∀ f ∈ fs, f.producible s.cfg

/-- Where nothing is handed over. -/
theorem State.HandsOver.of_eq {s t : State} (h : t.sent = s.sent) : s.HandsOver t :=
  ⟨[], by rw [h, List.append_nil], Nat.zero_le _, by simp⟩

/-- Where one frame is appended to `out` under a condition, and `past` is left alone. -/
theorem State.HandsOver.of_ite {s t : State} {p : Prop} [Decidable p] {f : Frame} (hpast : t.past = s.past)
    (hout : t.out = s.out ++ if p then [f] else []) (hf : f.producible s.cfg) : s.HandsOver t := by
  refine ⟨if p then [f] else [], by rw [State.sent, hpast, hout, List.append_assoc], ?_, fun g hg => ?_⟩
  · split <;> simp
  · obtain ⟨-, hg⟩ := List.mem_ite_nil_right.mp hg
    rwa [List.mem_singleton.mp hg]

/-- `DSTEP` hands over at most one frame, a 'B' frame of a channel that exists (R74). -/
theorem execDstep_handsOver {s t : State} {i : Byte} (h : execDstep i s = .next t) : s.HandsOver t := by
  obtain ⟨hi, rfl⟩ := execDstep_next h
  exact .of_ite (by simp) (by rw [State.nextInstant_out, State.digital_out]) (buttonFrame_producible hi _)

/-- `ASTEP` hands over at most one frame, a 'P' frame of a channel that exists (R90). -/
theorem execAstep_handsOver {s t : State} {j : Byte} (h : execAstep j s = .next t) : s.HandsOver t := by
  obtain ⟨hj, rfl⟩ := execAstep_next h
  exact .of_ite (by simp) (by rw [State.nextInstant_out, State.analog_out])
    (potFrame_producible hj (State.aIn_lt s j))

/-- `RESET` takes no frame back and hands none over (R141). -/
theorem execReset_sent {s t : State} (h : execReset s = .next t) : t.sent = s.sent := by
  cases h
  exact List.append_nil _

/-- A step hands over at most one frame, one the block produces (R60, R99). -/
theorem step_handsOver {s t : State} (h : step s = .next t) : s.HandsOver t := by
  obtain ⟨-, -, rfl⟩ | ⟨-, u, hu, rfl⟩ | ⟨-, -, u, hu, rfl⟩ | ⟨-, -, u, hu, rfl⟩ := step_cases h
  · exact .of_eq (by simp [State.sent])
  · exact .of_eq (execReset_sent hu :)
  · exact (execDstep_handsOver hu :)
  · exact (execAstep_handsOver hu :)

/-- What holds of the frames handed over and of all the block produces holds of those handed over next. -/
theorem State.HandsOver.forall_sent {s t : State} (h : s.HandsOver t) {p : Frame → Prop}
    (hs : ∀ f ∈ s.sent, p f) (hp : ∀ f : Frame, f.producible s.cfg → p f) : ∀ f ∈ t.sent, p f := by
  obtain ⟨fs, hsent, -, hprod⟩ := h
  rw [hsent]
  intro f hf
  obtain hf | hf := List.mem_append.mp hf
  · exact hs f hf
  · exact hp f (hprod f hf)

/-- Settles O39: a step hands over only frames the block produces. -/
theorem stepKeepsFramesProducible : Obligations.StepKeepsFramesProducible := by
  intro s t _ hs h
  rw [step_cfg h]
  exact (step_handsOver h).forall_sent hs fun _ hf => hf

/-- Settles O41: the list of the frames a step hands over has at most one element. -/
theorem aStepHandsOverAtMostOneFrame : Obligations.AStepHandsOverAtMostOneFrame := by
  intro s t h
  obtain ⟨fs, hsent, hlen, -⟩ := step_handsOver h
  match fs with
  | [] => exact .inl (by rw [hsent, List.append_nil])
  | [f] => exact .inr ⟨f, hsent⟩
  | _ :: _ :: _ => simp at hlen

/-- Settles O40: every frame comes from `mkFrame`, directly or in a channel step. -/
theorem everyInstructionKeepsChecksumsRight : Obligations.EveryInstructionKeepsChecksumsRight := by
  refine ⟨fun i s t hs h => ?_, fun s t hs h => (step_handsOver h).forall_sent hs fun _ hf => hf.1⟩
  refine exec_keeps (P := fun u => ∀ f ∈ u.sent, f.sums) (fun c k d1 d2 u hu f hf => ?_)
    (fun _ _ _ hu hx => (execDstep_handsOver hx).forall_sent hu fun _ hf => hf.1)
    (fun _ _ _ hu hx => (execAstep_handsOver hx).forall_sent hu fun _ hf => hf.1)
    (fun _ hu => hu) (fun _ u v hu hx => by rwa [execReset_sent hx]) hs h
  rw [State.sent, State.emitFrame_past, State.emitFrame_out, ← List.append_assoc] at hf
  obtain hf | hf := List.mem_append.mp hf
  · exact hu f hf
  · rw [List.mem_singleton.mp hf]
    exact mkFrame_sums c k d1 d2

/-! ### What the host was last told -/

/-- `State.tells` says of every digital channel that its level is recorded. -/
theorem State.tells_iff (s : State) : s.tells ↔ ∀ i : Byte, i.toNat < s.cfg.N →
    Recorded s.cfg.DSEED (s.dlastAt i) (levelsOf i s.out) := Iff.rfl

/-- The record is that of the noted levels and the levels reported. -/
theorem State.tells_of_eq {s t : State} (hs : s.tells) (hc : t.cfg = s.cfg) (hd : t.dlast = s.dlast)
    (ho : ∀ i, levelsOf i t.out = levelsOf i s.out) : t.tells := by
  rw [State.tells_iff, hc]
  intro i hi
  rw [ho, State.dlastAt, hd]
  exact hs i hi

/-- The levels reported for channel `k` after a `DSTEP i` (R70). -/
theorem execDstep_levelsOf {s t : State} {i : Byte} (h : execDstep i s = .next t) (k : Byte) :
    levelsOf k t.out = levelsOf k s.out ++ if s.dIn i ≠ s.dlastAt i ∧ i = k then [s.dIn i] else [] := by
  rw [execDstep_out h, levelsOf_append]
  by_cases hedge : s.dIn i = s.dlastAt i
  · simp [hedge, levelsOf]
  · simp [hedge, levelsOf_buttonFrame]

/-- `DSTEP` keeps the record: an edge is noted and reported together, no edge neither (R12). -/
theorem execDstep_keeps_tells {s t : State} {i : Byte} (hw : s.wf) (hs : s.tells)
    (h : execDstep i s = .next t) : t.tells := by
  rw [State.tells_iff, execDstep_cfg h]
  intro k hk
  rw [execDstep_levelsOf h]
  have hold := (State.tells_iff s).mp hs k hk
  by_cases hki : k = i
  · subst hki
    rw [execDstep_own hw h]
    by_cases hedge : s.dIn k = s.dlastAt k
    · simpa [hedge] using hold
    · simpa [hedge] using hold.edge hedge
  · rw [execDstep_other hki h, if_neg (fun hc => hki hc.2.symm), List.append_nil]
    exact hold

/-- `RESET` starts the record: nothing is reported yet, and every level is the seed (R12, R25). -/
theorem execReset_tells {s t : State} (h : execReset s = .next t) : t.tells := by
  cases h
  intro i hi
  have hi' : i.toNat < s.cfg.N := hi
  exact ⟨by simp [State.dlastAt, hi', levelsOf], rfl⟩

/-- Settles O24: only `DSTEP` and `RESET` note a level or report one. -/
theorem stepKeepsLastReportedLevel : Obligations.StepKeepsLastReportedLevel := by
  intro s t hw hs h
  obtain ⟨-, -, rfl⟩ | ⟨-, u, hu, rfl⟩ | ⟨-, -, u, hu, rfl⟩ | ⟨-, -, u, hu, rfl⟩ := step_cases h
  · exact State.tells_of_eq hs (by simp) (by simp) (by simp)
  · exact (execReset_tells hu :)
  · exact (execDstep_keeps_tells hw hs hu :)
  · obtain ⟨fs, hout, hpot⟩ := execAstep_out hu
    have hu' : u.tells := State.tells_of_eq hs (execAstep_cfg hu) (execAstep_dlast hu) fun k => by
      rw [hout, levelsOf_append, levelsOf_of_pot hpot, List.append_nil]
    exact hu'

end Sys2Proof.Machine
end

section
/-! PROOFS. The frame format: the split of a reading and its inverse, the decoder's answers by name, and that
decoder and encoder agree (R53 to R61, R101; U9 to U11). -/

namespace Sys2Proof

/-! ### The split of a reading -/

/-- Two bytes are remainder and quotient of a 12-bit reading by `b` exactly when they are in range and carry the
reading (R56, R57). -/
theorem mod_div_eq_iff {b q : Nat} (hbq : b * q = 4096) (hb : b ≤ 256) (hq : q ≤ 256) (d1 d2 : Byte)
    (v : Reading) : (BitVec.ofNat 8 (v.toNat % b), BitVec.ofNat 8 (v.toNat / b)) = (d1, d2) ↔
      (d1.toNat < b ∧ d2.toNat < q) ∧ BitVec.ofNat 12 (d1.toNat + b * d2.toNat) = v := by
  have hb0 : 0 < b := Nat.pos_of_ne_zero (by rintro rfl; omega)
  have hmod : v.toNat % b < b := Nat.mod_lt _ hb0
  have hdiv : v.toNat / b < q := Nat.div_lt_of_lt_mul (by rw [hbq]; exact v.isLt)
  rw [Prod.mk.injEq]
  constructor
  · rintro ⟨rfl, rfl⟩
    rw [Machine.toNat_ofNat8 (by omega), Machine.toNat_ofNat8 (by omega), Nat.mod_add_div]
    exact ⟨⟨hmod, hdiv⟩, BitVec.ofNat_toNat ..⟩
  · rintro ⟨⟨h1, h2⟩, rfl⟩
    have hlt : d1.toNat + b * d2.toNat < 2 ^ 12 := by
      calc d1.toNat + b * d2.toNat
          < b + b * d2.toNat := by omega
        _ = b * (d2.toNat + 1) := by rw [Nat.mul_add, Nat.mul_one, Nat.add_comm]
        _ ≤ b * q := Nat.mul_le_mul_left b h2
        _ = 2 ^ 12 := hbq
    rw [BitVec.toNat_ofNat, Nat.mod_eq_of_lt hlt, Nat.add_mul_mod_self_left, Nat.mod_eq_of_lt h1,
      Nat.add_mul_div_left _ _ hb0, Nat.div_eq_of_lt h1, Nat.zero_add]
    exact ⟨BitVec.ofNat_toNat .., BitVec.ofNat_toNat ..⟩

/-- `unsplit` gives exactly the reading whose split the two bytes are (R58). -/
theorem unsplit_eq_some {sp : Split} {d1 d2 : Byte} {v : Reading} :
    unsplit sp d1 d2 = some v ↔ split sp v = (d1, d2) := by
  have h1 : d1.toNat < 256 := d1.isLt
  have h2 : d2.toNat < 256 := d2.isLt
  cases sp with
  | nibble =>
    rw [split_nibble, mod_div_eq_iff (q := 256) (by decide) (by decide) (by decide)]
    simp [unsplit, h2]
  | le16 =>
    rw [split_le16, mod_div_eq_iff (q := 16) (by decide) (by decide) (by decide)]
    simp [unsplit, h1]

/-- The split can be undone, for every 12-bit reading (R58). -/
theorem unsplit_split (sp : Split) (v : Reading) : unsplit sp (split sp v).1 (split sp v).2 = some v :=
  unsplit_eq_some.mpr rfl

/-- Under `NIBBLE` two bytes are the split of no reading when the first is no nibble (R56). -/
theorem unsplit_nibble_of_lt {d1 : Byte} (h : 0x0F < d1.toNat) (d2 : Byte) : unsplit .nibble d1 d2 = none :=
  if_neg (by omega)

/-- Under `NIBBLE` two bytes are the split of a reading when the first is a nibble (R56). -/
theorem unsplit_nibble_of_le {d1 : Byte} (h : d1.toNat ≤ 0x0F) (d2 : Byte) :
    ∃ v, unsplit .nibble d1 d2 = some v := ⟨_, if_pos (by omega)⟩

/-- Settles O46: the two bytes are remainder and quotient. -/
theorem splitLosesNothing : Obligations.SplitLosesNothing := by
  intro v
  have := v.isLt
  rw [split_nibble, split_le16]
  exact ⟨toNat_mod_add_mul_div (by decide) (by decide) (by omega), toNat_mod_sixteen_le v.toNat,
    toNat_mod_add_mul_div (by decide) (by decide) (by omega)⟩

/-! ### The level byte -/

/-- The bytes that are a level: 0 and 1 (R54). -/
theorem eq_levelByte_iff (d : Byte) : (d = 0 ∨ d = 1) ↔ d = levelByte (d == 1) := by
  constructor
  · rintro (rfl | rfl) <;> rfl
  · intro h
    cases hx : d == 1 with
    | true => exact .inr (by rw [h, hx]; rfl)
    | false => exact .inl (by rw [h, hx]; rfl)

/-- A byte up to 1 is a level (R54). -/
theorem exists_eq_levelByte {d : Byte} (h : d.toNat ≤ 1) : ∃ x, d = levelByte x := by
  refine ⟨d == 1, (eq_levelByte_iff d).mp ?_⟩
  obtain h | h : d.toNat = 0 ∨ d.toNat = 1 := by omega
  · exact .inl (BitVec.eq_of_toNat_eq h)
  · exact .inr (BitVec.eq_of_toNat_eq h)

/-! ### The decoder's answers -/

/-- A 'B' word with a level and the unused 0 is a frame exactly if its checksum is right (R53 to R55, R59). -/
theorem decode_button (sp : Split) (i : Byte) (x : Bool) (ck : Byte) (rest : List Byte) :
    decode sp (cmdB :: i :: levelByte x :: 0 :: ck :: rest) =
      if ck ≠ checksum cmdB i (levelByte x) 0 then .error .badChecksum else .ok (.frameB i x, rest) := by
  cases x <;> simp [decode, levelByte]

/-- A 'P' word with the split of a reading is a frame exactly if its checksum is right (R56, R59). -/
theorem decode_pot {sp : Split} {d1 d2 : Byte} {v : Reading} (h : unsplit sp d1 d2 = some v) (j ck : Byte)
    (rest : List Byte) : decode sp (cmdP :: j :: d1 :: d2 :: ck :: rest) =
      if ck ≠ checksum cmdP j d1 d2 then .error .badChecksum else .ok (.frameP j v, rest) := by
  have hc : cmdP ≠ cmdB := by decide
  simp only [decode, if_neg hc, if_true, h]

/-- A command byte other than 'B' and 'P' is refused (R51, U11). -/
theorem decode_unknownCommand (sp : Split) {c : Byte} (hB : c ≠ cmdB) (hP : c ≠ cmdP) (i d1 d2 ck : Byte)
    (rest : List Byte) : decode sp (c :: i :: d1 :: d2 :: ck :: rest) = .error .unknownCommand := by
  simp only [decode, if_neg hB, if_neg hP]

/-- A 'B' word whose first data byte is no level is refused (R54, U10). -/
theorem decode_levelBits (sp : Split) {d1 : Byte} (h : d1 ≠ 0 ∧ d1 ≠ 1) (i d2 ck : Byte) (rest : List Byte) :
    decode sp (cmdB :: i :: d1 :: d2 :: ck :: rest) = .error .levelBits := by
  simp only [decode, if_true, if_pos h]

/-- A 'B' word with a level whose unused byte is not 0 is refused (R55, U9). -/
theorem decode_unusedByte (sp : Split) {d2 : Byte} (h : d2 ≠ 0) (i : Byte) (x : Bool) (ck : Byte)
    (rest : List Byte) : decode sp (cmdB :: i :: levelByte x :: d2 :: ck :: rest) = .error .unusedByte := by
  have hlevel : ¬ (levelByte x ≠ 0 ∧ levelByte x ≠ 1) := by cases x <;> decide
  simp only [decode, if_true, if_neg hlevel, if_pos h]

/-- A 'P' word whose data bytes are the split of no reading is refused (R56, U10). -/
theorem decode_splitBits {sp : Split} {d1 d2 : Byte} (h : unsplit sp d1 d2 = none) (j ck : Byte)
    (rest : List Byte) : decode sp (cmdP :: j :: d1 :: d2 :: ck :: rest) = .error .splitBits := by
  have hc : cmdP ≠ cmdB := by decide
  simp only [decode, if_neg hc, if_true, h]

/-- Fewer than five bytes are no frame (R61). -/
theorem decode_of_length_lt (sp : Split) {bs : List Byte} (h : bs.length < 5) :
    decode sp bs = .error .truncated := by
  match bs with
  | [] | [_] | [_, _] | [_, _, _] | [_, _, _, _] => rfl
  | _ :: _ :: _ :: _ :: _ :: _ =>
    simp only [List.length_cons] at h
    omega

/-! ### Decode after encode -/

/-- The decoder undoes the encoder, at the front of any stream (R58). -/
theorem decode_encode {sp : Split} {i : Instr} {bs : List Byte} (h : encode sp i = some bs)
    (rest : List Byte) : decode sp (bs ++ rest) = .ok (i, rest) := by
  cases i with
  | frameB k x => cases h; exact (decode_button sp k x _ rest).trans (if_neg (not_not.mpr rfl))
  | frameP j v => cases h; exact (decode_pot (unsplit_split sp v) j _ rest).trans (if_neg (not_not.mpr rfl))
  | dstep _ | astep _ | frame _ _ _ _ | poll | reset => cases h

/-- The two frame kinds have an encoding, the five operations have none (R64). -/
theorem encode_isSome_iff (sp : Split) (i : Instr) : (encode sp i).isSome = true ↔
    (∃ k x, i = .frameB k x) ∨ ∃ k v, i = .frameP k v := by
  cases i <;> simp [encode]

/-- Settles O43: round trip by the two frame kinds, and which instructions have an encoding. -/
theorem decodeOfEncodeIsTheInstruction : Obligations.DecodeOfEncodeIsTheInstruction :=
  ⟨fun _ _ _ rest h => decode_encode h rest, encode_isSome_iff⟩

/-! ### Encode after decode -/

/-- The encoder undoes the decoder: every refusal of the decoder left aside, the five bytes are those of the
frame (R60, U9 to U11). -/
theorem encode_decode {sp : Split} {bs rest : List Byte} {i : Instr} (h : decode sp bs = .ok (i, rest)) :
    ∃ w, encode sp i = some w ∧ bs = w ++ rest := by
  unfold decode at h
  split at h
  · rename_i c k d1 d2 ck tail
    by_cases hB : c = cmdB
    · rw [if_pos hB] at h
      split_ifs at h with hlevel hunused hck
      obtain ⟨rfl, rfl⟩ := Prod.mk.inj (Except.ok.inj h)
      have hd1 : d1 = levelByte (d1 == 1) := (eq_levelByte_iff d1).mp (by tauto)
      refine ⟨_, rfl, ?_⟩
      rw [hB, not_not.mp hck, not_not.mp hunused, hB, ← hd1]
      rfl
    · rw [if_neg hB] at h
      by_cases hP : c = cmdP
      · rw [if_pos hP] at h
        split at h
        · cases h
        · rename_i v hv
          split_ifs at h with hck
          obtain ⟨rfl, rfl⟩ := Prod.mk.inj (Except.ok.inj h)
          refine ⟨_, rfl, ?_⟩
          rw [unsplit_eq_some.mp hv, not_not.mp hck, hP]
          rfl
      · rw [if_neg hP] at h
        cases h
  · cases h

/-- Settles O44: the decoder's checks are exactly what makes the bytes those of the encoder. -/
theorem decodeAcceptsOnlyEncodedWords : Obligations.DecodeAcceptsOnlyEncodedWords :=
  fun _ _ _ _ => encode_decode

/-! ### Refusals -/

/-- Settles O45: each refusal is the first check of the decoder that fails. -/
theorem decodeRefusesByName : Obligations.DecodeRefusesByName := by
  refine ⟨fun sp c i d1 d2 ck hB hP => decode_unknownCommand sp hB hP i d1 d2 ck [],
    fun sp i d1 d2 ck h => decode_levelBits sp ?_ i d2 ck [], fun sp i d1 d2 ck h hd2 => ?_,
    fun i d1 d2 ck h => decode_splitBits (unsplit_nibble_of_lt h d2) i ck [], fun i d1 ck h hck => ?_,
    fun i d1 d2 ck h hck => ?_, fun sp bs => decode_of_length_lt sp⟩
  · constructor <;> rintro rfl <;> simp at h
  · obtain ⟨x, rfl⟩ := exists_eq_levelByte h
    exact decode_unusedByte sp hd2 i x ck []
  · obtain ⟨x, rfl⟩ := exists_eq_levelByte h
    refine (decode_button .nibble i x ck []).trans (if_pos ?_)
    rw [checksum_eq_sum, add_zero]
    exact hck
  · obtain ⟨v, hv⟩ := unsplit_nibble_of_le h d2
    refine (decode_pot hv i ck []).trans (if_pos ?_)
    rw [checksum_eq_sum]
    exact hck

/-- Settles O47, by running the decoder on the six words. -/
theorem wordsOfTheSpecDecode : Obligations.WordsOfTheSpecDecode := by
  unfold Obligations.WordsOfTheSpecDecode
  decide

/-! ### The checksum equation -/

/-- A byte is determined by its sum with a number, modulo 256 (R101). -/
theorem byte_eq_of_add_mod {a b : Byte} {n : Nat} (h : (a.toNat + n) % 256 = (b.toNat + n) % 256) : a = b := by
  have ha := a.isLt
  have hb := b.isLt
  exact BitVec.eq_of_toNat_eq (by omega)

/-- Settles O38: with the other bytes fixed, the equation determines each byte. -/
theorem oneChangedByteIsDetected : Obligations.OneChangedByteIsDetected := by
  intro f b hf
  refine ⟨fun h => byte_eq_of_add_mod (n := f.index.toNat + f.data1.toNat + f.data2.toNat) ?_,
    fun h => byte_eq_of_add_mod (n := f.command.toNat + f.data1.toNat + f.data2.toNat) ?_,
    fun h => byte_eq_of_add_mod (n := f.command.toNat + f.index.toNat + f.data2.toNat) ?_,
    fun h => byte_eq_of_add_mod (n := f.command.toNat + f.index.toNat + f.data1.toNat) ?_,
    fun h => BitVec.eq_of_toNat_eq (h.symm.trans hf)⟩
  all_goals
    simp only [Frame.sums] at h hf
    omega

end Sys2Proof

namespace Sys2Proof.Machine

/-- Settles O36: to perform a frame row is to emit the frame it names. -/
theorem frameRowsAreHandedOver : Obligations.FrameRowsAreHandedOver := by
  constructor
  · intro s i x
    rw [← mkFrame_button]
    rfl
  · intro s j v
    rw [← mkFrame_pot]
    rfl

end Sys2Proof.Machine
end

section
/-! PROOFS. Power-on and `RESET`, and the single steps of the sequencer: which one it is, and what it does (R5, R25,
R106, R108, R109, R115, R124, R140, R141). -/

namespace Sys2Proof.Machine

/-! ### Power-on -/

/-- The checks made when the model is built are the constraints of R5 (D16). -/
theorem checkConfig_eq_ok (c : Config) : checkConfig c = .ok () ↔ c.wf := by
  have hpow : 0 < 2 ^ c.DW := Nat.two_pow_pos _
  unfold checkConfig Config.wf
  split_ifs <;> simp <;> omega

/-- Settles O2: power-on is `RESET` once the checks pass. -/
theorem bootRefusesExactlyTheBadConfigurations : Obligations.BootRefusesExactlyTheBadConfigurations := by
  intro c s
  rw [← checkConfig_eq_ok, boot]
  cases checkConfig c with
  | ok _ => simp [eq_comm]
  | error _ => simp

/-- `RESET` leaves the state after reset of a block fresh from power-on as it is (R140). -/
theorem execReset_resetOf (c : Config) : execReset (State.resetOf c) = .next (State.resetOf c) := rfl

/-- The state after reset is legal and starts the record of reported levels, being what `RESET` leaves. -/
theorem State.resetOf_wf_and_tells {c : Config} (hc : c.wf) :
    (State.resetOf c).wf ∧ (State.resetOf c).tells :=
  ⟨execReset_wf hc (execReset_resetOf c), execReset_tells (execReset_resetOf c)⟩

/-- Settles O1: every admitted configuration, and the one of `State.reset` is admitted. -/
theorem resetStateIsLegal : Obligations.ResetStateIsLegal :=
  ⟨fun _ => State.resetOf_wf_and_tells, State.resetOf_wf_and_tells (c := Config.atReset) (by decide)⟩

/-! ### `RESET` -/

/-- Settles O3: the fields that `RESET` writes, and those it leaves. -/
theorem resetWritesEveryRegister : Obligations.ResetWritesEveryRegister := by
  intro s
  exact ⟨_, rfl, rfl, rfl, rfl, rfl, rfl, execReset_sent (s := s) rfl, rfl, rfl, rfl, rfl⟩

/-- Settles O4: what `RESET` writes depends on the configuration alone, and an empty `out` adds nothing to
`past`. -/
theorem resetIsIdempotent : Obligations.ResetIsIdempotent := by
  refine ⟨fun s t h => ?_, execReset_resetOf⟩
  cases h
  simp [exec, execReset]

/-- Settles O5: a reset event selects `RESET` whatever `seq` and `tick` are. -/
theorem resetEventWinsInEveryPhase : Obligations.ResetEventWinsInEveryPhase := by
  intro s hr
  exact ⟨_, rfl, step_of_selected_some (State.selected_of_reset hr) rfl⟩

/-! ### The channel steps in the step -/

/-- Where the selected operation stops, the step stops. -/
theorem step_of_selected_fault {s : State} {i : Instr} {r : Fault} (hi : s.selected = some i)
    (hx : exec i s = .fault r) : step s = .fault r := by
  rw [step, hi]
  simp only [hx, andThen_fault]

/-- Settles O10: the selected channel step, then the move of `seq` that `State.advance` makes. -/
theorem stepRunsTheSelectedChannelStep : Obligations.StepRunsTheSelectedChannelStep := by
  constructor
  · intro s i hr hq
    have hsel : s.selected = some (.dstep i) := by rw [State.selected_of_dig hr (by rw [hq]), hq]
    exact ⟨fun t hx => step_of_selected_some hsel hx, fun r hx => step_of_selected_fault hsel hx⟩
  · intro s j hr hq
    have hsel : s.selected = some (.astep j) := by rw [State.selected_of_ana hr (by rw [hq]), hq]
    exact ⟨fun t hx => step_of_selected_some hsel hx, fun r hx => step_of_selected_fault hsel hx⟩

/-- Settles O21: both channel steps test their index first. -/
theorem stepsOfAbsentChannelsFault : Obligations.StepsOfAbsentChannelsFault :=
  ⟨fun _ _ h => if_neg (Nat.not_lt.mpr h), fun _ _ h => if_neg (Nat.not_lt.mpr h)⟩

/-! ### The wait -/

/-- In the wait, without a reset event, the step awaits `tick` (R106). -/
theorem step_of_wait {s : State} (hr : s.resetNow = false) (hp : s.seq.phase = .wait) :
    step s = .next s.await := step_of_selected_none (State.selected_of_wait hr hp)

/-- On `tick` the wait is left (R106). -/
theorem State.await_of_tick {s : State} (ht : s.tickNow = true) :
    s.await = (s.moveTo (afterWait s.cfg)).nextInstant := by
  rw [State.await, if_pos ht]

/-- Without `tick` only time passes (R106). -/
theorem State.await_of_no_tick {s : State} (ht : s.tickNow = false) :
    s.await = { s.ahead 1 with timer := s.timer + 1 } := by
  rw [State.await, if_neg (by simp [ht]), State.nextInstant_eq_ahead]
  rfl

/-- Settles O11: the two cases of `State.await`. -/
theorem theWaitIsLeftByTickAlone : Obligations.TheWaitIsLeftByTickAlone := by
  refine fun s hr hp => ⟨fun ht => ?_, fun ht => ?_⟩
  · rw [step_of_wait hr hp, State.await_of_tick ht]
    rfl
  · rw [step_of_wait hr hp, State.await_of_no_tick ht, ← State.nextInstant_eq_ahead]
    rfl

/-- While neither `tick` nor a reset event falls, the wait lasts and only time passes (R106, R115). -/
theorem steps_of_quiet : ∀ {n : Nat} {s : State}, s.seq.phase = .wait →
    (∀ m, m < n → (s.ahead m).tickNow = false ∧ (s.ahead m).resetNow = false) →
    steps n s = .next { s.ahead n with timer := s.timer + n }
  | 0, _, _, _ => rfl
  | n + 1, s, hp, hquiet => by
    obtain ⟨ht, hr⟩ := hquiet 0 (Nat.succ_pos n)
    rw [State.ahead_zero] at ht hr
    have hlater : ∀ m, m < n → ((s.ahead 1).ahead m).tickNow = false ∧ ((s.ahead 1).ahead m).resetNow = false :=
      fun m hm => by
        rw [State.ahead_ahead, Nat.add_comm]
        exact hquiet (m + 1) (Nat.succ_lt_succ hm)
    rw [steps, step_of_wait hr hp, andThen_next, State.await_of_no_tick ht]
    refine (steps_of_quiet (s := { s.ahead 1 with timer := s.timer + 1 }) hp hlater).trans ?_
    show Host.Outcome.next { (s.ahead 1).ahead n with timer := s.timer + 1 + n } = _
    rw [State.ahead_ahead, Nat.add_comm 1 n, Nat.add_assoc, Nat.add_comm 1 n]

/-- Settles O6: after reset the block is in the wait with the delay at 0. -/
theorem nothingIsSentBeforeTheFirstTick : Obligations.NothingIsSentBeforeTheFirstTick := by
  intro c n k stim hquiet
  rw [steps_of_quiet rfl hquiet, show (State.resetIn c stim k).timer + n = n from Nat.zero_add n]
  rfl

end Sys2Proof.Machine
end

section
/-! PROOFS. The polling cycle: `POLL` is the two scans one after the other, its frames are in order, and the single
steps of the sequencer perform it (R43, R107 to R112). -/

namespace Sys2Proof.Machine

/-! ### Some instants later -/

/-- `t` belongs to the same block as `s`, `n` instants later: what the environment presents to `t` is what it presents
to `s.ahead n`. -/
structure State.After (n : Nat) (s t : State) : Prop where
  cfg : t.cfg = s.cfg
  stim : t.stim = s.stim.drop n
  drawn : t.drawn = s.drawn + n

theorem State.After.refl (s : State) : s.After 0 s := ⟨rfl, rfl, rfl⟩

/-- The state that is only moved on (R36). -/
theorem State.after_ahead (s : State) (n : Nat) : s.After n (s.ahead n) := ⟨rfl, rfl, rfl⟩

/-- The state of the same block whose instant is used up. -/
theorem State.After.of_instant {s t : State} (hc : t.cfg = s.cfg)
    (h : t.stim = s.stim.tail ∧ t.drawn = s.drawn + 1) : s.After 1 t :=
  ⟨hc, by rw [h.1, List.drop_one], h.2⟩

theorem State.After.trans {m n : Nat} {s t u : State} (h : s.After m t) (h' : t.After n u) :
    s.After (m + n) u :=
  ⟨h'.cfg.trans h.cfg, by rw [h'.stim, h.stim, List.drop_drop], by rw [h'.drawn, h.drawn, Nat.add_assoc]⟩

section
variable {n : Nat} {s t : State} (h : s.After n t)
include h

/-- What stands `k` instants ahead of `t` stands `n + k` ahead of `s`. -/
theorem State.After.ahead (k : Nat) : (s.ahead (n + k)).After 0 (t.ahead k) := by
  refine ⟨h.cfg, ?_, ?_⟩
  · rw [State.ahead_stim, h.stim, List.drop_drop, State.ahead_stim, List.drop_zero]
  · rw [State.ahead_drawn, h.drawn, State.ahead_drawn, Nat.add_assoc, Nat.add_zero]

theorem State.After.dIn (k : Nat) (i : Byte) : (t.ahead k).dIn i = (s.ahead (n + k)).dIn i :=
  State.dIn_congr (h.ahead k).stim (h.ahead k).drawn i

theorem State.After.aIn (k : Nat) (j : Byte) : (t.ahead k).aIn j = (s.ahead (n + k)).aIn j :=
  State.aIn_congr (h.ahead k).cfg (h.ahead k).stim (h.ahead k).drawn j

theorem State.After.tickNow (k : Nat) : (t.ahead k).tickNow = (s.ahead (n + k)).tickNow :=
  State.tickNow_congr (h.ahead k).stim (h.ahead k).drawn

theorem State.After.resetNow (k : Nat) : (t.ahead k).resetNow = (s.ahead (n + k)).resetNow :=
  State.resetNow_congr (h.ahead k).stim (h.ahead k).drawn

end

theorem execDstep_after {i : Byte} {s t : State} (h : execDstep i s = .next t) : s.After 1 t :=
  .of_instant (execDstep_cfg h) (execDstep_instant h)

theorem execAstep_after {j : Byte} {s t : State} (h : execAstep j s = .next t) : s.After 1 t :=
  .of_instant (execAstep_cfg h) (execAstep_instant h)

/-! ### `POLL` is the two scans -/

/-- A next state of `POLL` is what the two scans leave, with the delay restarted (R110, R111). -/
theorem execPoll_next {s t : State} (h : execPoll s = .next t) :
    ∃ u v, scan execDstep (channels s.cfg.N) s = .next u ∧ scan execAstep (channels s.cfg.M) u = .next v ∧
      t = { v with timer := 0 } := by
  obtain ⟨u, hu, h⟩ := andThen_eq_next h
  obtain ⟨v, hv, h⟩ := andThen_eq_next h
  cases h
  exact ⟨u, v, hu, hv, rfl⟩

/-- What an analog step does depends on the configuration and the analog registers (R80). -/
theorem counter_and_reference_congr {s t : State} (hc : t.cfg = s.cfg) (ha : t.alast = s.alast)
    (hd : t.decay = s.decay) : counter t = counter s ∧ reference t = reference s := by
  have hlast : ∀ j, t.alastAt j = s.alastAt j := fun j => by rw [State.alastAt, ha, State.alastAt]
  have hcount : ∀ j, t.decayAt j = s.decayAt j := fun j => by rw [State.decayAt, hd, State.decayAt]
  exact ⟨funext₂ fun j => counter_congr hc (hlast j) (hcount j), funext₂ fun j => reference_congr hc (hlast j)⟩

/-- The coarse step in the wait, on `tick` (R111). -/
theorem cycleStep_of_tick {s : State} (hr : s.resetNow = false) (hp : s.seq.phase = .wait)
    (ht : s.tickNow = true) : cycleStep s = exec .poll (s.ahead 1) := by
  rw [cycleStep, if_pos ⟨hr, hp, ht⟩, State.nextInstant_eq_ahead]

/-- Settles O15: the digital scan, then the analog scan on what it left, each in its closed form, and both as seen
from the beginning of the cycle. -/
theorem pollPerformsEveryChannelStepInOrder : Obligations.PollPerformsEveryChannelStepInOrder := by
  refine ⟨fun s hr hq => cycleStep_of_tick hr (by rw [hq]), fun s hw => ?_⟩
  obtain ⟨hc, hdl, hal, hdc, -⟩ := hw
  obtain ⟨t, ht, tcfg, tseq, tpast, -, talast, tdecay, tstim, tdrawn, -, tdlast, -, tout⟩ :=
    scan_execDstep s hc.1 hdl s.cfg.N le_rfl
  obtain ⟨u, hu, ucfg, useq, upast, -, udlast, ustim, udrawn, -, -, uown, -, uout⟩ :=
    scan_execAstep t (by rw [tcfg]; exact hc.2.1) (by rw [talast, tcfg, hal]) (by rw [tdecay, tcfg, hdc])
      s.cfg.M (by rw [tcfg])
  have hmid : s.After s.cfg.N t := ⟨tcfg, tstim, tdrawn⟩
  have hend : t.After s.cfg.M u := ⟨ucfg, ustim, udrawn⟩
  obtain ⟨hcnt, href⟩ := counter_and_reference_congr tcfg talast tdecay
  refine ⟨{ u with timer := 0 }, ?_, ucfg.trans tcfg, useq.trans tseq, upast.trans tpast, rfl,
    (hmid.trans hend).stim, (hmid.trans hend).drawn, fun i hi => ?_, fun j hj => ?_, ?_⟩
  · show execPoll s = _
    rw [execPoll, ht, andThen_next, hu, andThen_next]
  · show u.dlastAt i = _
    rw [State.dlastAt, udlast]
    exact tdlast i hi
  · have hown := uown j hj
    rw [href, hcnt, hmid.aIn, reference_eq, counter_eq] at hown
    exact hown
  · show u.out = _
    rw [uout, tout, tcfg, hcnt]
    simp only [hmid.aIn, counter_eq]

/-! ### The single steps of a cycle -/

/-- The position before the `k`-th digital step of a cycle; with `k = N`, the one after the last (R106, R108). -/
def digPosition (c : Config) (k : Nat) : Seq :=
  if k < c.N then ⟨.dig, BitVec.ofNat 8 k⟩ else if 0 < c.M then ⟨.ana, 0⟩ else .wait0

/-- The position before the `k`-th analog step of a cycle; with `k = M`, the one after the last (R109). -/
def anaPosition (c : Config) (k : Nat) : Seq :=
  if k < c.M then ⟨.ana, BitVec.ofNat 8 k⟩ else .wait0

/-- A cycle begins with the digital scan (R106). -/
theorem digPosition_zero (c : Config) : digPosition c 0 = afterWait c := rfl

/-- The analog scan begins where the digital one ends (R108). -/
theorem digPosition_end (c : Config) : digPosition c c.N = anaPosition c 0 := if_neg (Nat.lt_irrefl _)

/-- The analog scan ends in the wait (R109). -/
theorem anaPosition_end (c : Config) : anaPosition c c.M = .wait0 := if_neg (Nat.lt_irrefl _)

/-- The index after that of channel `k` is that of channel `k + 1`. -/
theorem ofNat8_succ (k : Nat) : BitVec.ofNat 8 k + 1 = BitVec.ofNat 8 (k + 1) := (BitVec.ofNat_add ..).symm

theorem afterDig_eq {c : Config} (hN : c.N ≤ 256) {k : Nat} (hk : k < c.N) :
    afterDig c (BitVec.ofNat 8 k) = digPosition c (k + 1) := by
  rw [afterDig, toNat_ofNat8 (by omega), ofNat8_succ, digPosition]

theorem afterAna_eq {c : Config} (hM : c.M ≤ 256) {k : Nat} (hk : k < c.M) :
    afterAna c (BitVec.ofNat 8 k) = anaPosition c (k + 1) := by
  rw [afterAna, toNat_ofNat8 (by omega), ofNat8_succ, anaPosition]

/-- A move to where `seq` stands restarts the delay only (log entry 6). -/
theorem State.moveTo_of_seq {s : State} {q : Seq} (h : s.seq = q) : s.moveTo q = { s with timer := 0 } := by
  subst h
  rfl

/-- The step in the digital scan, as `DSTEP` on a state wherever its `seq` is (R108). -/
theorem step_of_execDstep {c : Config} {s t : State} {k : Nat} (hc : s.cfg = c) (hN : c.N ≤ 256) (hk : k < c.N)
    (hr : s.resetNow = false) (h : execDstep (BitVec.ofNat 8 k) s = .next t) :
    step (s.moveTo (digPosition c k)) = .next (t.moveTo (digPosition c (k + 1))) := by
  rw [digPosition, if_pos hk, ← afterDig_eq hN hk, ← hc, ← execDstep_cfg h]
  have hsel : (s.moveTo ⟨.dig, BitVec.ofNat 8 k⟩).selected = some (.dstep (BitVec.ofNat 8 k)) :=
    State.selected_of_dig hr rfl
  exact (step_of_selected_some hsel (execDstep_moveTo _ h)).trans rfl

/-- The step in the analog scan, as `ASTEP` on a state wherever its `seq` is (R109). -/
theorem step_of_execAstep {c : Config} {s t : State} {k : Nat} (hc : s.cfg = c) (hM : c.M ≤ 256) (hk : k < c.M)
    (hr : s.resetNow = false) (h : execAstep (BitVec.ofNat 8 k) s = .next t) :
    step (s.moveTo (anaPosition c k)) = .next (t.moveTo (anaPosition c (k + 1))) := by
  rw [anaPosition, if_pos hk, ← afterAna_eq hM hk, ← hc, ← execAstep_cfg h]
  have hsel : (s.moveTo ⟨.ana, BitVec.ofNat 8 k⟩).selected = some (.astep (BitVec.ofNat 8 k)) :=
    State.selected_of_ana hr rfl
  exact (step_of_selected_some hsel (execAstep_moveTo _ h)).trans rfl

/-- The last channel step of a scan, peeled off. -/
theorem scan_channels_succ {op : Byte → State → Host.Outcome State Fault Refusal} {n : Nat} {s t : State}
    (h : scan op (channels (n + 1)) s = .next t) :
    ∃ u, scan op (channels n) s = .next u ∧ op (BitVec.ofNat 8 n) u = .next t := by
  rw [channels_succ, scan_append] at h
  obtain ⟨u, hu, h⟩ := andThen_eq_next h
  obtain ⟨v, hv, h⟩ := andThen_eq_next h
  cases h
  exact ⟨u, hu, hv⟩

/-- A scan uses up an instant per channel, when each channel step uses up one. -/
theorem scan_after {op : Byte → State → Host.Outcome State Fault Refusal}
    (hop : ∀ i s t, op i s = .next t → s.After 1 t) :
    ∀ {n : Nat} {s t : State}, scan op (channels n) s = .next t → s.After n t
  | 0, s, _, h => by cases h; exact .refl s
  | n + 1, _, _, h => by
    obtain ⟨u, hu, h⟩ := scan_channels_succ h
    exact (scan_after hop hu).trans (hop _ _ _ h)

/-- While no reset event falls, the steps of the sequencer at the positions of a scan perform the scan: `pos k` is the
position before channel step `k`. -/
theorem steps_of_scan {op : Byte → State → Host.Outcome State Fault Refusal} {pos : Nat → Seq} {s : State}
    (hop : ∀ i u v, op i u = .next v → u.After 1 v) : ∀ {n : Nat} {t : State},
    (∀ k u v, k < n → u.cfg = s.cfg → u.resetNow = false → op (BitVec.ofNat 8 k) u = .next v →
      step (u.moveTo (pos k)) = .next (v.moveTo (pos (k + 1)))) →
    (∀ k, k < n → (s.ahead k).resetNow = false) → scan op (channels n) s = .next t →
    steps n (s.moveTo (pos 0)) = .next (t.moveTo (pos n))
  | 0, _, _, _, h => by cases h; rfl
  | n + 1, t, hstep, hquiet, h => by
    obtain ⟨u, hu, hlast⟩ := scan_channels_succ h
    have hafter : s.After n u := scan_after hop hu
    have hr : u.resetNow = false := (hafter.resetNow 0).trans (hquiet n (Nat.lt_succ_self n))
    have hsteps : steps n (s.moveTo (pos 0)) = .next (u.moveTo (pos n)) :=
      steps_of_scan hop (fun k u v hk => hstep k u v (by omega)) (fun k hk => hquiet k (by omega)) hu
    rw [steps_add, hsteps, andThen_next, steps, hstep n u t (Nat.lt_succ_self n) hafter.cfg hr hlast]
    rfl

/-- Settles O16: the step that leaves the wait, then the steps of the digital scan, then those of the analog scan. -/
theorem singleStepsOfACycleEqualOnePoll : Obligations.SingleStepsOfACycleEqualOnePoll := by
  intro s hw hq htick hquiet
  obtain ⟨hN, hM, -⟩ := hw.1
  obtain ⟨t, ht, -, tseq, -⟩ := pollPerformsEveryChannelStepInOrder.2 (s.ahead 1) hw
  obtain ⟨u, v, hu, hv, rfl⟩ := execPoll_next ht
  have hmid : s.After (1 + s.cfg.N) u := (s.after_ahead 1).trans (scan_after (fun _ _ _ => execDstep_after) hu)
  have hwait : step s = .next ((s.ahead 1).moveTo (digPosition s.cfg 0)) := by
    have hr : s.resetNow = false := hquiet 0 (by omega)
    rw [step_of_wait hr (by rw [hq]), State.await_of_tick htick, ← State.nextInstant_eq_ahead]
    rfl
  have hdig : steps s.cfg.N ((s.ahead 1).moveTo (digPosition s.cfg 0)) =
      .next (u.moveTo (digPosition s.cfg s.cfg.N)) :=
    steps_of_scan (fun _ _ _ => execDstep_after) (fun _ _ _ hk hc => step_of_execDstep hc hN hk)
      (fun k hk => by rw [State.ahead_ahead]; exact hquiet _ (by omega)) hu
  have hana : steps s.cfg.M (u.moveTo (anaPosition s.cfg 0)) = .next (v.moveTo (anaPosition s.cfg s.cfg.M)) :=
    steps_of_scan (fun _ _ _ => execAstep_after)
      (fun _ _ _ hk hc => step_of_execAstep (hc.trans hmid.cfg) hM hk)
      (fun k hk => by rw [hmid.resetNow]; exact hquiet _ (by omega)) hv
  have hend : v.seq = .wait0 := tseq.trans hq
  rw [ht, steps_add, steps_add, steps, hwait, andThen_next, steps, andThen_next, hdig, andThen_next, digPosition_end,
    hana, anaPosition_end, State.moveTo_of_seq hend]

/-! ### The frames of a cycle -/

/-- Frames of one kind that a scan of the first `n` channels hands over: at most one per channel, in ascending order of
the index (R43). -/
def ScanFrames (cmd : Byte) (n : Nat) (fs : List Frame) : Prop :=
  fs.length ≤ n ∧ fs.Pairwise Frame.before ∧ ∀ f ∈ fs, f.command = cmd ∧ f.index.toNat < n

/-- A channel without a report. -/
theorem ScanFrames.succ {cmd : Byte} {n : Nat} {fs : List Frame} (h : ScanFrames cmd n fs) :
    ScanFrames cmd (n + 1) fs := by
  obtain ⟨hlen, hord, hkind⟩ := h
  exact ⟨by omega, hord, fun f hf => ⟨(hkind f hf).1, Nat.lt_succ_of_lt (hkind f hf).2⟩⟩

/-- A channel with a report. -/
theorem ScanFrames.concat {cmd : Byte} {n : Nat} {fs : List Frame} (h : ScanFrames cmd n fs) {f : Frame}
    (hc : f.command = cmd) (hi : f.index.toNat = n) : ScanFrames cmd (n + 1) (fs ++ [f]) := by
  obtain ⟨hlen, hord, hkind⟩ := h.succ
  obtain ⟨hlen', -, hbelow⟩ := h
  refine ⟨by simpa using hlen', List.pairwise_append.mpr ⟨hord, List.pairwise_singleton .., ?_⟩, fun g hg => ?_⟩
  · intro g hg f' hf'
    obtain ⟨hgc, hgi⟩ := hbelow g hg
    rw [List.mem_singleton.mp hf']
    exact .inr ⟨hgc.trans hc.symm, by rwa [hi]⟩
  · obtain hg | hg := List.mem_append.mp hg
    · exact hkind g hg
    · rw [List.mem_singleton.mp hg]
      exact ⟨hc, by omega⟩

/-- A scan hands over ordered frames of its kind, when channel step `i` hands over at most one, of index `i`. -/
theorem scan_out {op : Byte → State → Host.Outcome State Fault Refusal} {cmd : Byte}
    (hop : ∀ i s t, op i s = .next t →
      t.out = s.out ∨ ∃ f : Frame, t.out = s.out ++ [f] ∧ f.command = cmd ∧ f.index = i) :
    ∀ {n : Nat} {s t : State}, n ≤ 256 → scan op (channels n) s = .next t →
      ∃ fs, t.out = s.out ++ fs ∧ ScanFrames cmd n fs
  | 0, _, _, _, h => by cases h; exact ⟨[], by simp, by simp [ScanFrames]⟩
  | n + 1, s, t, hn, h => by
    obtain ⟨u, hu, hlast⟩ := scan_channels_succ h
    obtain ⟨fs, hout, hfs⟩ := scan_out hop (by omega) hu
    obtain hsame | ⟨f, hf, hc, hi⟩ := hop _ _ _ hlast
    · exact ⟨fs, hsame.trans hout, hfs.succ⟩
    · refine ⟨fs ++ [f], by rw [hf, hout, List.append_assoc], hfs.concat hc ?_⟩
      rw [hi, toNat_ofNat8 (by omega)]

/-- `DSTEP i` hands over nothing or one 'B' frame of index `i` (R70). -/
theorem execDstep_report {i : Byte} {s t : State} (h : execDstep i s = .next t) :
    t.out = s.out ∨ ∃ f : Frame, t.out = s.out ++ [f] ∧ f.command = 0x42 ∧ f.index = i := by
  rw [execDstep_out h]
  split
  · exact .inr ⟨_, rfl, rfl, rfl⟩
  · exact .inl (List.append_nil _)

/-- `ASTEP j` hands over nothing or one 'P' frame of index `j` (R80). -/
theorem execAstep_report {j : Byte} {s t : State} (h : execAstep j s = .next t) :
    t.out = s.out ∨ ∃ f : Frame, t.out = s.out ++ [f] ∧ f.command = 0x50 ∧ f.index = j := by
  obtain ⟨-, rfl⟩ := execAstep_next h
  rw [State.nextInstant_out, State.analog_out]
  split
  · exact .inr ⟨_, rfl, potFrame_command .., potFrame_index ..⟩
  · exact .inl (List.append_nil _)

/-- Settles O19: the frames of the digital scan, then those of the analog scan. -/
theorem aCycleAppendsOrderedFrames : Obligations.ACycleAppendsOrderedFrames := by
  intro s t ⟨hN, hM, _⟩ h
  obtain ⟨u, v, hu, hv, rfl⟩ := execPoll_next h
  obtain ⟨bs, hub, hblen, hbord, hbkind⟩ := scan_out (fun _ _ _ => execDstep_report) hN hu
  obtain ⟨ps, hvp, hplen, hpord, hpkind⟩ := scan_out (fun _ _ _ => execAstep_report) hM hv
  refine ⟨bs ++ ps, by rw [← List.append_assoc, ← hub]; exact hvp, ?_, List.pairwise_append.mpr
    ⟨hbord, hpord, fun b hb p hp => .inl ⟨(hbkind b hb).1, (hpkind p hp).1⟩⟩⟩
  rw [List.length_append]
  exact Nat.add_le_add hblen hplen

end Sys2Proof.Machine
end

section
/-! PROOFS. Runs without end: the sequencer comes back to the wait, `tick` recurs there, and each channel's step comes
up again (R105, R106, R114; decision D11). -/

namespace Sys2Proof.Machine

/-! ### Runs from a legal state -/

/-- A step uses up one instant and writes no parameter (R20, R36). -/
theorem step_after {s t : State} (h : step s = .next t) : s.After 1 t :=
  .of_instant (step_cfg h) (everyStepUsesUpOneInstant s t h)

/-- A run from a legal state goes on for any number of steps (R120). -/
theorem steps_complete : ∀ (n : Nat) {s : State}, s.wf → ∃ t, steps n s = .next t ∧ t.wf ∧ s.After n t
  | 0, s, hw => ⟨s, rfl, hw, .refl s⟩
  | n + 1, s, hw => by
    obtain ⟨u, hu⟩ := stepNeverFaultsOrRefuses s hw
    obtain ⟨t, ht, htw, hafter⟩ := steps_complete n (step_keeps_wf hw hu)
    refine ⟨t, by rw [steps, hu, andThen_next, ht], htw, ?_⟩
    rw [Nat.add_comm]
    exact (step_after hu).trans hafter

/-- The run from `s` comes to a state of which `P` holds. -/
def State.Eventually (s : State) (P : State → Prop) : Prop := ∃ m t, steps m s = .next t ∧ P t

theorem State.Eventually.now {s : State} {P : State → Prop} (h : P s) : s.Eventually P := ⟨0, s, rfl, h⟩

theorem State.Eventually.of_step {s u : State} {P : State → Prop} (hu : step s = .next u)
    (h : u.Eventually P) : s.Eventually P := by
  obtain ⟨m, t, ht, hP⟩ := h
  exact ⟨m + 1, t, by rw [steps, hu, andThen_next, ht], hP⟩

/-- What every legal state of the block comes to, comes up again after any number of steps. -/
theorem exists_steps_of_eventually {s : State} (hw : s.wf) (n : Nat) {P : State → Prop}
    (h : ∀ t : State, t.wf → t.cfg = s.cfg → t.Eventually P) :
    ∃ m t, n ≤ m ∧ steps m s = .next t ∧ P t := by
  obtain ⟨u, hu, huw, hafter⟩ := steps_complete n hw
  obtain ⟨m, t, ht, hP⟩ := h u huw hafter.cfg
  exact ⟨n + m, t, Nat.le_add_right .., by rw [steps_add, hu, andThen_next, ht], hP⟩

theorem State.Eventually.bind {s : State} {P Q : State → Prop} (hw : s.wf) (h : s.Eventually P)
    (hPQ : ∀ t : State, t.wf → t.cfg = s.cfg → P t → t.Eventually Q) : s.Eventually Q := by
  obtain ⟨m, u, hu, hP⟩ := h
  obtain ⟨u', hu', huw, hafter⟩ := steps_complete m hw
  obtain rfl : u = u' := by injection hu.symm.trans hu'
  obtain ⟨n, t, ht, hQ⟩ := hPQ u huw hafter.cfg hP
  exact ⟨m + n, t, by rw [steps_add, hu, andThen_next, ht], hQ⟩

/-! ### Back to the wait -/

/-- How many channel steps are left of the cycle when the sequencer is at `q`, at most. -/
def remaining (c : Config) (q : Seq) : Nat :=
  match q.phase with
  | .wait => 0
  | .dig => c.N - q.idx.toNat + c.M
  | .ana => c.M - q.idx.toNat

theorem remaining_wait0 (c : Config) : remaining c .wait0 = 0 := rfl

theorem remaining_dig (c : Config) (i : Byte) : remaining c ⟨.dig, i⟩ = c.N - i.toNat + c.M := rfl

theorem remaining_ana (c : Config) (j : Byte) : remaining c ⟨.ana, j⟩ = c.M - j.toNat := rfl

theorem remaining_afterDig_lt {c : Config} (hN : c.N ≤ 256) {i : Byte} (hi : i.toNat < c.N) :
    remaining c (afterDig c i) < c.N - i.toNat + c.M := by
  unfold afterDig
  split_ifs with hnext
  · rw [remaining_dig, toNat_succ hN hnext]
    omega
  · rw [remaining_ana]
    omega
  · rw [remaining_wait0]
    omega

theorem remaining_afterAna_lt {c : Config} (hM : c.M ≤ 256) {j : Byte} (hj : j.toNat < c.M) :
    remaining c (afterAna c j) < c.M - j.toNat := by
  unfold afterAna
  split_ifs with hnext
  · rw [remaining_ana, toNat_succ hM hnext]
    omega
  · rw [remaining_wait0]
    omega

/-- In a scan every step brings the end of the scan nearer; a reset event brings it at once (R107, R141). -/
theorem remaining_nextSeq_lt {c : Config} (hc : c.wf) {q : Seq} (hq : q.legal c) (hp : q.phase ≠ .wait)
    (reset tick : Bool) : remaining c (nextSeq c q reset tick) < remaining c q := by
  obtain ⟨hN, hM, -⟩ := hc
  obtain ⟨phase, idx⟩ := q
  obtain ⟨-, hdig, hana⟩ := hq
  cases phase with
  | wait => exact absurd rfl hp
  | dig =>
    have hlt := remaining_afterDig_lt hN (hdig rfl)
    cases reset with
    | true => exact Nat.zero_lt_of_lt hlt
    | false => exact hlt
  | ana =>
    have hlt := remaining_afterAna_lt hM (hana rfl)
    cases reset with
    | true => exact Nat.zero_lt_of_lt hlt
    | false => exact hlt

/-- The one legal position in the wait is `(WAIT, 0)` (R18). -/
theorem Seq.eq_wait0 {c : Config} {q : Seq} (hq : q.legal c) (hp : q.phase = .wait) : q = .wait0 := by
  obtain ⟨phase, idx⟩ := q
  obtain ⟨hwait, -⟩ := hq
  rw [Seq.mk.injEq]
  exact ⟨hp, hwait hp⟩

/-- Every legal state comes to the wait, by induction on the channel steps left (R107, R109). -/
theorem State.eventually_wait {s : State} (hw : s.wf) : s.Eventually fun t => t.seq = .wait0 := by
  induction hn : remaining s.cfg s.seq using Nat.strong_induction_on generalizing s with
  | _ n ih =>
    have ⟨hc, _, _, _, _, _, hq⟩ := hw
    by_cases hp : s.seq.phase = .wait
    · exact .now (Seq.eq_wait0 hq hp)
    · obtain ⟨u, hu⟩ := stepNeverFaultsOrRefuses s hw
      refine .of_step hu (ih _ ?_ (step_keeps_wf hw hu) rfl)
      rw [step_cfg hu, step_seq hu, ← hn]
      exact remaining_nextSeq_lt hc hq hp _ _

/-! ### `tick` in the wait -/

/-- Without `tick` the sequencer stays in the wait, whether a reset event falls or not (R106, R141). -/
theorem step_seq_of_no_tick {s t : State} (hq : s.seq = .wait0) (ht : s.tickNow = false) (h : step s = .next t) :
    t.seq = .wait0 := by
  rw [step_seq h, hq, ht]
  cases s.resetNow <;> rfl

/-- A block in the wait comes, still in the wait, to the first `tick` that is presented (R106). -/
theorem State.eventually_tick_of_ahead : ∀ (d : Nat) {s : State}, s.wf → s.seq = .wait0 →
    (s.ahead d).tickNow = true → s.Eventually fun t => t.seq = .wait0 ∧ t.tickNow = true
  | 0, _, _, hq, hd => .now ⟨hq, hd⟩
  | d + 1, s, hw, hq, hd => by
    cases ht : s.tickNow with
    | true => exact .now ⟨hq, ht⟩
    | false =>
      obtain ⟨u, hu⟩ := stepNeverFaultsOrRefuses s hw
      refine .of_step hu (eventually_tick_of_ahead d (step_keeps_wf hw hu) (step_seq_of_no_tick hq ht hu) ?_)
      rw [(step_after hu).tickNow, Nat.add_comm]
      exact hd

/-- Every legal state comes to a `tick` in the wait (D11). -/
theorem State.eventually_tick {s : State} (hw : s.wf) :
    s.Eventually fun t => t.seq = .wait0 ∧ t.tickNow = true := by
  refine (State.eventually_wait hw).bind hw fun t htw _ hq => ?_
  obtain ⟨d, -, htick⟩ := t.tickNow_recurs 0
  exact State.eventually_tick_of_ahead d htw hq (htick _ rfl rfl)

/-- Settles O17: the wait comes again, and there the next `tick` presented is awaited. -/
theorem tickRecursInEveryRun : Obligations.TickRecursInEveryRun :=
  fun _ hw n => exists_steps_of_eventually hw n fun _ htw _ => State.eventually_tick htw

/-! ### Every channel comes up again -/

/-- The run from `s` comes to the position `q`, unless a reset event falls first. -/
def State.ComesTo (s : State) (q : Seq) : Prop := s.Eventually fun t => t.resetNow = true ∨ t.seq = q

/-- Where the next step takes a state of which `q` is the next position unless a reset event falls. -/
theorem State.ComesTo.of_nextSeq {s : State} (hw : s.wf) {q : Seq}
    (h : nextSeq s.cfg s.seq false s.tickNow = q) : s.ComesTo q := by
  cases hr : s.resetNow with
  | true => exact .now (.inl hr)
  | false =>
    obtain ⟨u, hu⟩ := stepNeverFaultsOrRefuses s hw
    exact .of_step hu (.now (.inr (by rw [step_seq hu, hr, h])))

/-- From position to position, where the move does not depend on `tick`. -/
theorem State.ComesTo.next {s : State} (hw : s.wf) {q q' : Seq} (h : s.ComesTo q)
    (hq : ∀ tick, nextSeq s.cfg q false tick = q') : s.ComesTo q' := by
  refine State.Eventually.bind hw h fun t htw hc ht => ?_
  obtain hr | hseq := ht
  · exact .now (.inl hr)
  · exact State.ComesTo.of_nextSeq htw (by rw [hc, hseq, hq])

/-- Each position of the digital scan comes up, and the one after it (R106, R108). -/
theorem State.comesTo_digPosition {s : State} (hw : s.wf) : ∀ k, k ≤ s.cfg.N → s.ComesTo (digPosition s.cfg k)
  | 0, _ => by
    refine (State.eventually_tick hw).bind hw fun t htw hc ⟨hq, htick⟩ => ?_
    exact State.ComesTo.of_nextSeq htw (by rw [hq, htick, hc, digPosition_zero]; rfl)
  | k + 1, hk => by
    obtain ⟨hN, -⟩ := hw.1
    have hlt : k < s.cfg.N := hk
    refine (comesTo_digPosition hw k hlt.le).next hw fun tick => ?_
    rw [digPosition, if_pos hlt, ← afterDig_eq hN hlt]
    rfl

/-- Each position of the analog scan comes up (R108, R109). -/
theorem State.comesTo_anaPosition {s : State} (hw : s.wf) : ∀ k, k ≤ s.cfg.M → s.ComesTo (anaPosition s.cfg k)
  | 0, _ => by
    rw [← digPosition_end]
    exact State.comesTo_digPosition hw s.cfg.N le_rfl
  | k + 1, hk => by
    obtain ⟨-, hM, -⟩ := hw.1
    have hlt : k < s.cfg.M := hk
    refine (comesTo_anaPosition hw k hlt.le).next hw fun tick => ?_
    rw [anaPosition, if_pos hlt, ← afterAna_eq hM hlt]
    rfl

/-- Settles O18: after each `tick` the sequencer goes through the positions of both scans. -/
theorem everyChannelComesUpAgain : Obligations.EveryChannelComesUpAgain := by
  refine fun s hw n => ⟨fun i hi => exists_steps_of_eventually hw n fun t htw hc => ?_,
    fun j hj => exists_steps_of_eventually hw n fun t htw hc => ?_⟩
  · rw [← hc] at hi
    have hpos := State.comesTo_digPosition htw i.toNat hi.le
    rwa [digPosition, if_pos hi, BitVec.ofNat_toNat, BitVec.setWidth_eq] at hpos
  · rw [← hc] at hj
    have hpos := State.comesTo_anaPosition htw j.toNat hj.le
    rwa [anaPosition, if_pos hj, BitVec.ofNat_toNat, BitVec.setWidth_eq] at hpos

end Sys2Proof.Machine
end

section
/-! PROOFS. One channel over many cycles: the transitions of a button, the activity window of a knob and its silence at
the floor, and the first reading after reset (R15, R26, R74, R85 to R88). -/

namespace Sys2Proof.Machine

/-! ### Transitions of a digital channel -/

/-- Performing `DSTEP i` is the digital step of channel `i` (R70). -/
@[simp] theorem exec_dstep (i : Byte) : exec (.dstep i) = execDstep i := rfl

/-- The level before the `k`-th from now on of channel `i`; the level noted stands before the first (R74). -/
def State.levelBefore (s : State) (i : Byte) (k : Nat) : Bool :=
  if k = 0 then s.dlastAt i else (s.ahead (k - 1)).dIn i

/-- Among the next `n` cycles, those at which the level of channel `i` differs from the one before it (R74). -/
def State.transitions (s : State) (i : Byte) (n : Nat) : List Nat :=
  (List.range n).filter fun k => (s.ahead k).dIn i != s.levelBefore i k

/-- One cycle more: a transition if its level differs. -/
theorem State.transitions_succ (s : State) (i : Byte) (n : Nat) : s.transitions i (n + 1) =
    s.transitions i n ++ if (s.ahead n).dIn i ≠ s.levelBefore i n then [n] else [] := by
  rw [State.transitions, List.range_succ, List.filter_append, List.filter_singleton, State.transitions]
  simp

/-- Over `n` cycles `DSTEP i` reports the transitions, and the level noted is always the one before (R72, R74). -/
theorem execTimes_dstep {s : State} {i : Byte} (hw : s.wf) (hi : i.toNat < s.cfg.N) (n : Nat) :
    ∃ t, execTimes (.dstep i) n s = .next t ∧ t.wf ∧ s.After n t ∧ t.dlastAt i = s.levelBefore i n ∧
      t.out = s.out ++ (s.transitions i n).map fun k => buttonFrame i ((s.ahead k).dIn i) := by
  induction n with
  | zero => exact ⟨s, rfl, hw, .refl s, rfl, (List.append_nil _).symm⟩
  | succ n ih =>
    obtain ⟨t, ht, htw, hafter, hlast, hout⟩ := ih
    have hread : t.dIn i = (s.ahead n).dIn i := hafter.dIn 0 i
    have hu : execDstep i t = .next (t.digital i (t.dIn i)).nextInstant :=
      execDstep_of_lt (by rwa [hafter.cfg])
    refine ⟨_, ?_, execDstep_keeps_wf htw hu, hafter.trans (execDstep_after hu), ?_, ?_⟩
    · rw [execTimes_succ_last, ht, andThen_next, exec_dstep, hu]
    · rw [execDstep_own htw hu, hread]
      rfl
    · rw [execDstep_out hu, hout, hread, hlast, State.transitions_succ, List.map_append, List.append_assoc]
      split <;> rfl

/-- Settles O22: the reports are those of the transitions. -/
theorem buttonFramesAreTheTransitions : Obligations.ButtonFramesAreTheTransitions := by
  intro n s i hw hi
  obtain ⟨t, ht, -, -, hlast, hout⟩ := execTimes_dstep hw hi n
  refine ⟨t, ht, fun hn => ?_, hout⟩
  rw [hlast, State.levelBefore, if_neg hn]

/-! ### A cycle without an excursion -/

/-- While the reading is within `THRESHOLD`, the reference stays, and the counter is tested as it stands (R82, R86). -/
theorem execAstep_still {s t : State} {j : Byte} (hw : s.wf)
    (hstill : distance (s.aIn j).toNat (s.alastAt j).toNat ≤ s.cfg.THRESHOLD) (h : execAstep j s = .next t) :
    t.alastAt j = s.alastAt j ∧ t.decayAt j = (if 1 < s.decayAt j then s.decayAt j - 1 else s.decayAt j) ∧
      t.out = s.out ++ if 1 < s.decayAt j then [potFrame s.cfg.SPLIT j (s.aIn j).toNat] else [] := by
  have hown := execAstep_own hw h
  rwa [counter_eq, reference_eq, if_neg (Nat.not_lt.mpr hstill), if_neg (Nat.not_lt.mpr hstill)] at hown

/-- At a counter of 0 or 1 such a cycle changes nothing (R87). -/
theorem execAstep_of_floor {s : State} {j : Byte} (hj : j.toNat < s.cfg.M) (hfloor : s.decayAt j ≤ 1)
    (hstill : distance (s.aIn j).toNat (s.alastAt j).toNat ≤ s.cfg.THRESHOLD) :
    execAstep j s = .next (s.ahead 1) := by
  have href : reference s j (s.aIn j) = s.alastAt j := by rw [reference_eq, if_neg (Nat.not_lt.mpr hstill)]
  have hcnt : counter s j (s.aIn j) = s.decayAt j := by rw [counter_eq, if_neg (Nat.not_lt.mpr hstill)]
  have hidle : ¬ 1 < s.decayAt j := Nat.not_lt.mpr hfloor
  have hlast : s.alast.set j.toNat (s.alastAt j) = s.alast := set_getD_self ..
  have hdecay : s.decay.set j.toNat (s.decayAt j) = s.decay := set_getD_self ..
  rw [execAstep_of_lt hj, State.analog_eq, href, hcnt, if_neg hidle, if_neg hidle, List.append_nil, hlast, hdecay,
    State.nextInstant_eq_ahead]

/-- Settles O30, by induction on the number of cycles: after each one the state is the same an instant on. -/
theorem atTheFloorAStillChannelIsSilent : Obligations.AtTheFloorAStillChannelIsSilent := by
  intro n
  induction n with
  | zero => intro s j _ _ _; rfl
  | succ n ih =>
    intro s j hj hfloor hstill
    have hfirst : execAstep j s = .next (s.ahead 1) := execAstep_of_floor hj hfloor (hstill 0 (Nat.succ_pos n))
    have hlater : execTimes (.astep j) n (s.ahead 1) = .next ((s.ahead 1).ahead n) :=
      ih (s.ahead 1) j hj hfloor fun k hk => by
        rw [State.ahead_ahead, Nat.add_comm]
        exact hstill (k + 1) (Nat.succ_lt_succ hk)
    rw [execTimes, exec_astep, hfirst, andThen_next, hlater, State.ahead_ahead, Nat.add_comm]

/-- Settles O31: an excursion accounts for every change but the fall by 1, and that is tested to be above 1. -/
theorem counterNeverFallsBelowOne : Obligations.CounterNeverFallsBelowOne := by
  intro s t j hw h
  by_cases hexc : s.cfg.THRESHOLD < distance (s.aIn j).toNat (s.alastAt j).toNat
  · obtain ⟨-, hdecay, -⟩ := execAstep_excursion hw hexc h
    refine ⟨fun _ => .inl hexc, fun hlong _ => ?_, fun _ => hexc⟩
    rw [hdecay]
    split <;> omega
  · obtain ⟨hlast, hdecay, hout⟩ := execAstep_still hw (Nat.not_lt.mp hexc) h
    refine ⟨fun hfall => .inr ?_, fun _ hpos => ?_, fun hne => absurd hlast hne⟩
    · have hact : 1 < s.decayAt j := by
        by_contra hidle
        rw [if_neg hidle] at hdecay
        omega
      rw [if_pos hact] at hdecay hout
      exact ⟨by omega, by simp [hout]⟩
    · rw [hdecay]
      obtain hpos | hexc' := hpos
      · split <;> omega
      · exact absurd hexc' hexc

/-! ### The activity window -/

/-- The reports of channel `j` in the first `m` cycles from now on, each with its own reading (R82). -/
def State.reports (s : State) (j : Byte) (m : Nat) : List Frame :=
  (List.range m).map fun k => potFrame s.cfg.SPLIT j ((s.ahead k).aIn j).toNat

theorem State.reports_succ (s : State) (j : Byte) (m : Nat) : s.reports j (m + 1) =
    s.reports j m ++ [potFrame s.cfg.SPLIT j ((s.ahead m).aIn j).toNat] := by
  simp [State.reports, List.range_succ]

/-- From an excursion on, while the readings stay within `THRESHOLD` of it, the counter stands at `IDLE_TIMEOUT` less
the cycles that reported, which are the first `IDLE_TIMEOUT - 1` (R85). -/
theorem execTimes_astep_window {s : State} {j : Byte} (hw : s.wf) (hj : j.toNat < s.cfg.M)
    (hlong : 1 ≤ s.cfg.IDLE_TIMEOUT) (hexc : s.cfg.THRESHOLD < distance (s.aIn j).toNat (s.alastAt j).toNat)
    (n : Nat) (hstill : ∀ k, 1 ≤ k → k ≤ n →
      distance ((s.ahead k).aIn j).toNat (s.aIn j).toNat ≤ s.cfg.THRESHOLD) :
    ∃ t, execTimes (.astep j) (n + 1) s = .next t ∧ t.alastAt j = s.aIn j ∧
      t.out = s.out ++ s.reports j (min (n + 1) (s.cfg.IDLE_TIMEOUT - 1)) ∧
      t.decayAt j = s.cfg.IDLE_TIMEOUT - min (n + 1) (s.cfg.IDLE_TIMEOUT - 1) := by
  induction n with
  | zero =>
    obtain ⟨t, ht⟩ : ∃ t, execAstep j s = .next t := ⟨_, execAstep_of_lt hj⟩
    obtain ⟨hlast, hdecay, hout⟩ := execAstep_excursion hw hexc ht
    refine ⟨t, by rw [execTimes, exec_astep, ht]; rfl, hlast, ?_⟩
    by_cases hact : 1 < s.cfg.IDLE_TIMEOUT
    · rw [if_pos hact] at hdecay hout
      rw [Nat.min_eq_left (by omega)]
      exact ⟨hout, hdecay⟩
    · rw [if_neg hact] at hdecay hout
      rw [Nat.min_eq_right (by omega), show s.cfg.IDLE_TIMEOUT - 1 = 0 by omega]
      exact ⟨hout, hdecay⟩
  | succ n ih =>
    obtain ⟨t, ht, hlast, hout, hdecay⟩ := ih fun k hk hkn => hstill k hk (by omega)
    have hcfg : t.cfg = s.cfg := execTimes_astep_cfg ht
    have hread : t.aIn j = (s.ahead (n + 1)).aIn j := execTimes_astep_aIn ht j
    have hwithin : distance (t.aIn j).toNat (t.alastAt j).toNat ≤ t.cfg.THRESHOLD := by
      rw [hcfg, hread, hlast]
      exact hstill (n + 1) (by omega) le_rfl
    obtain ⟨u, hu⟩ : ∃ u, execAstep j t = .next u := ⟨_, execAstep_of_lt (by rwa [hcfg])⟩
    obtain ⟨hulast, hudecay, huout⟩ := execAstep_still (execTimes_astep_keeps_wf hw ht) hwithin hu
    rw [hcfg, hread, hout] at huout
    refine ⟨u, by rw [execTimes_succ_last, ht, andThen_next, exec_astep, hu], hulast.trans hlast, ?_⟩
    by_cases hopen : n + 1 < s.cfg.IDLE_TIMEOUT - 1
    · rw [Nat.min_eq_left (by omega)] at hdecay huout
      rw [if_pos (by omega)] at hudecay huout
      rw [Nat.min_eq_left (by omega), State.reports_succ, ← List.append_assoc]
      exact ⟨huout, by omega⟩
    · rw [Nat.min_eq_right (by omega)] at hdecay huout
      rw [if_neg (by omega)] at hudecay huout
      rw [Nat.min_eq_right (by omega), ← hdecay]
      exact ⟨huout.trans (List.append_nil _), hudecay⟩

/-- Settles O29: the window, by induction on the cycles after the excursion. -/
theorem aWindowLastsIdleTimeoutLessOne : Obligations.AWindowLastsIdleTimeoutLessOne :=
  fun n _ _ hw hj hlong hexc hstill => execTimes_astep_window hw hj hlong hexc n hstill

/-! ### The first reading after reset -/

/-- After reset every analog channel has the reference 0 and the counter 0 (R25, D3). -/
theorem State.resetIn_analog (c : Config) (stim : List Instant) (k : Nat) (j : Byte) :
    (State.resetIn c stim k).alastAt j = 0 ∧ (State.resetIn c stim k).decayAt j = 0 :=
  ⟨getD_replicate_default .., getD_replicate_default ..⟩

/-- The distance to 0 is the number itself (R83). -/
theorem distance_zero (v : Nat) : distance v 0 = v := by
  simp [distance]

/-- Settles O33: the counter tested is 0 unless the reading, compared with the reference 0, is an excursion. -/
theorem firstAnalogReadingIsComparedWithZero : Obligations.FirstAnalogReadingIsComparedWithZero := by
  intro c stim k j hc hj hlong v
  have ht : execAstep j (State.resetIn c stim k) = .next ((State.resetIn c stim k).analog j v).nextInstant :=
    execAstep_of_lt hj
  refine ⟨_, ht, ?_⟩
  obtain ⟨hlast, hdecay⟩ := State.resetIn_analog c stim k j
  obtain ⟨-, -, hout⟩ := execAstep_own (State.resetIn_wf hc stim k) ht
  rw [counter_eq, hlast, hdecay, State.resetIn_cfg, State.resetIn_out, List.nil_append,
    show (0 : Reading).toNat = 0 from rfl, distance_zero] at hout
  rw [hout]
  by_cases hexc : c.THRESHOLD < v.toNat
  · rw [if_pos hexc, if_pos hexc, if_pos hlong]
  · rw [if_neg hexc, if_neg hexc]
    rfl

end Sys2Proof.Machine
end

section
/-! PROOFS. A machine poised for a frame word: the channel is selected, its input and registers are such that it reports
exactly this frame, and so it does (R46, R70, R80; log entry 8). -/

namespace Sys2Proof.Machine

/-- A word that decodes to an instruction the configuration admits poises the machine for it (log entry 8). -/
theorem State.withFetchWord_of_decode {s : State} {nbits w : Nat} {i : Instr}
    (h : decodeTableWord nbits w = some i) (hi : i.wf s.cfg = true) : s.withFetchWord nbits w = s.poised i := by
  simp only [State.withFetchWord, h, hi, if_true]

theorem wf_frameB {c : Config} {i : Byte} (h : i.toNat < c.N) (x : Bool) : (Instr.frameB i x).wf c = true := by
  simp only [Instr.wf, Instr.check, if_pos h]

theorem wf_frameP {c : Config} {j : Byte} {v : Reading} (h : j.toNat < c.M) (hv : v.toNat < 2 ^ c.W) :
    (Instr.frameP j v).wf c = true := by
  simp only [Instr.wf, Instr.check, if_pos h, if_pos hv]

/-! ### What poising leaves unchanged -/

@[simp] theorem State.poised_cfg (s : State) (i : Instr) : (s.poised i).cfg = s.cfg := by cases i <;> rfl

@[simp] theorem State.poised_past (s : State) (i : Instr) : (s.poised i).past = s.past := by cases i <;> rfl

@[simp] theorem State.poised_out (s : State) (i : Instr) : (s.poised i).out = s.out := by cases i <;> rfl

/-! ### What the move of the sequencer leaves unchanged -/

@[simp] theorem State.advance_sent (s : State) (i : Instr) : (s.advance i).sent = s.sent := by cases i <;> rfl

@[simp] theorem State.advance_dlastAt (s : State) (i : Instr) (k : Byte) : (s.advance i).dlastAt k = s.dlastAt k := by
  cases i <;> rfl

@[simp] theorem State.advance_alastAt (s : State) (i : Instr) (k : Byte) : (s.advance i).alastAt k = s.alastAt k := by
  cases i <;> rfl

/-! ### The inputs presented -/

@[simp] theorem channels_length (n : Nat) : (channels n).length = n := by simp [channels]

/-- Of a channel's inputs presented, the one that is replaced is the one that is read. -/
theorem getElem?_set_map_channels {α : Type} (f : Byte → α) {n : Nat} {i : Byte} (h : i.toNat < n) (a : α) :
    (((channels n).map f).set i.toNat a)[i.toNat]? = some a :=
  List.getElem?_set_self (by simpa using h)

/-! ### Poised for a 'B' frame -/

theorem State.poised_frameB_dIn {s : State} {i : Byte} (h : i.toNat < s.cfg.N) (x : Bool) :
    (s.poised (.frameB i x)).dIn i = x := by
  show ((((channels s.cfg.N).map s.dIn).set i.toNat x)[i.toNat]?).getD _ = x
  rw [getElem?_set_map_channels _ h, Option.getD_some]

theorem State.poised_frameB_dlastAt {s : State} (hl : s.dlast.length = s.cfg.N) {i : Byte} (h : i.toNat < s.cfg.N)
    (x : Bool) : (s.poised (.frameB i x)).dlastAt i = !x := getD_set_self _ _ _ _ (by rwa [hl])

/-- The digital channel poised for an edge reports it by the next step (R70). -/
theorem step_poised_frameB {s : State} (hl : s.dlast.length = s.cfg.N) {i : Byte} (h : i.toNat < s.cfg.N)
    (x : Bool) : ∃ t, step (s.poised (.frameB i x)) = .next t ∧ t.sent = s.sent ++ [buttonFrame i x] ∧
      t.dlastAt i = x := by
  have hx : exec (.dstep i) (s.poised (.frameB i x)) =
      .next ((s.poised (.frameB i x)).digital i x).nextInstant := by
    rw [exec_dstep, execDstep_of_lt (by rwa [State.poised_cfg]), State.poised_frameB_dIn h]
  have hedge : x ≠ (s.poised (.frameB i x)).dlastAt i := by
    rw [State.poised_frameB_dlastAt hl h]
    cases x <;> decide
  refine ⟨_, step_of_selected_some (State.selected_of_dig rfl rfl) hx, ?_, ?_⟩
  · rw [State.advance_sent]
    simp [State.sent, hedge]
  · rw [State.advance_dlastAt, State.dlastAt, State.nextInstant_dlast, State.digital_dlast]
    exact getD_set_self _ _ _ _ (by simpa [State.poised, hl] using h)

/-! ### Poised for a 'P' frame -/

/-- A reading of `W` bits is read as it is (R32). -/
theorem narrow_of_lt {w : Nat} {v : Reading} (h : v.toNat < 2 ^ w) : narrow w v = v := by
  rw [narrow, Nat.mod_eq_of_lt h, BitVec.ofNat_toNat, BitVec.setWidth_eq]

theorem State.poised_frameP_aIn {s : State} {j : Byte} (h : j.toNat < s.cfg.M) {v : Reading}
    (hv : v.toNat < 2 ^ s.cfg.W) : (s.poised (.frameP j v)).aIn j = v := by
  show narrow s.cfg.W ((((channels s.cfg.M).map s.aIn).set j.toNat v)[j.toNat]?.getD _) = v
  rw [getElem?_set_map_channels _ h, Option.getD_some, narrow_of_lt hv]

theorem State.poised_frameP_alastAt {s : State} (hl : s.alast.length = s.cfg.M) {j : Byte} (h : j.toNat < s.cfg.M)
    (v : Reading) : (s.poised (.frameP j v)).alastAt j = v := getD_set_self _ _ _ _ (by rwa [hl])

theorem State.poised_frameP_decayAt {s : State} (hl : s.decay.length = s.cfg.M) {j : Byte} (h : j.toNat < s.cfg.M)
    (v : Reading) : (s.poised (.frameP j v)).decayAt j = 2 := getD_set_self _ _ _ _ (by rwa [hl])

/-- A reading equal to the reference is no excursion (R83). -/
theorem reference_and_counter_of_alastAt {s : State} {j : Byte} {v : Reading} (h : s.alastAt j = v) :
    reference s j v = v ∧ counter s j v = s.decayAt j := by
  have hstill : ¬ s.cfg.THRESHOLD < distance v.toNat v.toNat := by simp [distance]
  rw [reference_eq, counter_eq, h, if_neg hstill, if_neg hstill]
  exact ⟨rfl, rfl⟩

/-- The analog channel poised in the tail of a window reports its reading by the next step (R80, R82). -/
theorem step_poised_frameP {s : State} (hal : s.alast.length = s.cfg.M) (hdl : s.decay.length = s.cfg.M)
    {j : Byte} (h : j.toNat < s.cfg.M) {v : Reading} (hv : v.toNat < 2 ^ s.cfg.W) :
    ∃ t, step (s.poised (.frameP j v)) = .next t ∧
      t.sent = s.sent ++ [potFrame s.cfg.SPLIT j v.toNat] ∧ t.alastAt j = v := by
  have hx : exec (.astep j) (s.poised (.frameP j v)) =
      .next ((s.poised (.frameP j v)).analog j v).nextInstant := by
    rw [exec_astep, execAstep_of_lt (by rwa [State.poised_cfg]), State.poised_frameP_aIn h hv]
  obtain ⟨href, hcnt⟩ := reference_and_counter_of_alastAt (State.poised_frameP_alastAt hal h v)
  rw [State.poised_frameP_decayAt hdl h] at hcnt
  refine ⟨_, step_of_selected_some (State.selected_of_ana rfl rfl) hx, ?_, ?_⟩
  · rw [State.advance_sent]
    simp [State.sent, hcnt]
  · rw [State.advance_alastAt, State.alastAt, State.nextInstant_alast, State.analog_alast, href]
    exact getD_set_self _ _ _ _ (by simpa [State.poised, hal] using h)

/-- Settles O48: the word poises the machine, and the poised channel reports. -/
theorem aPoisedMachineProducesTheWordNext : Obligations.APoisedMachineProducesTheWordNext := by
  refine ⟨fun s w i x hw hd hi => ?_, fun s w j v hw hd hj hv => ?_⟩
  · obtain ⟨-, hdl, -⟩ := hw
    rw [State.withFetchWord_of_decode hd (wf_frameB hi x)]
    exact step_poised_frameB hdl hi x
  · obtain ⟨-, -, hal, hdl, -⟩ := hw
    rw [State.withFetchWord_of_decode hd (wf_frameP hj hv)]
    exact step_poised_frameP hal hdl hj hv

end Sys2Proof.Machine
end
